-- ==== Sys2Proof/Word.lean ====
section
/-!
DEFINITION. Word types of the block (00_scope.md R8, R9; 10_state.md R21).
Only what the spec treats as bits is a bit vector: stream bytes, header and descriptor fields, sample and scale
patterns. Counts, positions, offsets, targets and the capacity are natural numbers (R8, R33; D19, D30).
-/

namespace Sys2Proof

/-- A byte is 8 bits (R9). -/
abbrev Byte := BitVec 8

/-- A 16-bit field: magic, messageType, signalId, descriptorType, valueLength, numberOfValues ... (R8). -/
abbrev Bits16 := BitVec 16

/-- A 32-bit field or a sample as the accumulator holds it (R8, R28). -/
abbrev Bits32 := BitVec 32

/-- A 64-bit field or a scale-factor pattern (R8, R27). -/
abbrev Bits64 := BitVec 64

end Sys2Proof
end

