-- ==== Sys2Proof/Syntax.lean ====
section
/-!
DEFINITION. The operations of the block as syntax: one constructor of `Instr` per row of spec/opcode_table.json,
each carrying the operands its format gives it (30_encoding.md R70 to R75; 00_scope.md R2).
-/

namespace Sys2Proof

/-- Format F-HDR as fields (30_encoding.md R70). The signed fields `reserved1` (s16) and `reserved2` (s32) are held
as their two's-complement patterns; nothing reads them (R104). -/
structure FrameHeader where
  magic           : Bits16
  headerLength    : Bits16
  messageType     : Bits16
  reserved1       : Bits16
  reserved2       : Bits32
  timestampFamily : Bits32
  timestamp       : Bits64
  dataLength      : Bits32
  deriving DecidableEq, Repr

/-- The 8-byte head of a signal-data payload, format F-SIG (30_encoding.md R72). -/
structure SignalHead where
  numberOfSignals : Bits16
  reserved        : Bits16
  signalId        : Bits16
  numberOfValues  : Bits16
  deriving DecidableEq, Repr

/-- The 8-byte head of a calibration descriptor, format F-DESC (30_encoding.md R73). -/
structure DescHead where
  signalId       : Bits16
  descriptorType : Bits16
  reserved       : Bits16
  valueLength    : Bits16
  deriving DecidableEq, Repr

/-- The four formats an operation's bytes can have. Which one applies is fixed by where the bytes stand: a frame in
the stream, its 28-byte header, a descriptor in a calibration payload, a sample group in a signal-data payload. -/
inductive Format where
  /-- F-HDR, 28 bytes (R70). -/
  | header
  /-- F-FRAME, header and payload (R75). -/
  | frame
  /-- F-DESC, one calibration descriptor (R73). -/
  | descriptor
  /-- F-S24, one 3-byte sample group (R74). -/
  | sample
  deriving DecidableEq, Repr

/-- The operations of the block, one constructor per row of the opcode table. -/
inductive Instr where
  /-- HEADER_DECODE: the eight fields of the 28 header bytes (41_header_decoder.md R100). -/
  | headerDecode (h : FrameHeader)
  /-- SIGNAL_DATA: a frame of messageType 0x0001 with its header and its payload bytes (43_sample_decoder.md R140). -/
  | signalData (h : FrameHeader) (pay : List Byte)
  /-- CALIBRATION: a frame of messageType 0x0008 (42_calibration_decoder.md R120). -/
  | calibration (h : FrameHeader) (pay : List Byte)
  /-- DISCARD: a frame of any other messageType (44_stream_loop.md R167). -/
  | discard (h : FrameHeader) (pay : List Byte)
  /-- SCALE_FACTOR: a descriptor of descriptorType 0x0002 (42_calibration_decoder.md R123). `value` is the bytes of
  the payload at off+8 and after it, eight of them, or fewer where the payload ends before off+16 (R128). -/
  | scaleFactor (signalId reserved valueLength : Bits16) (value : List Byte)
  /-- SKIP_DESCRIPTOR: a descriptor of any other descriptorType (R124). Its value, padding and trailer are never read
  and need not lie inside the payload, so they are no operand. -/
  | skipDescriptor (signalId descriptorType reserved valueLength : Bits16)
  /-- SAMPLE24: the three bytes low, mid, high of one sample group (43_sample_decoder.md R142). -/
  | sample24 (b0 b1 b2 : Byte)
  deriving DecidableEq, Repr

/-- The format an operation is read from. -/
def Instr.format : Instr → Format
  | .headerDecode _ => .header
  | .signalData _ _ => .frame
  | .calibration _ _ => .frame
  | .discard _ _ => .frame
  | .scaleFactor _ _ _ _ => .descriptor
  | .skipDescriptor _ _ _ _ => .descriptor
  | .sample24 _ _ _ => .sample

end Sys2Proof
end

