-- ==== Sys2Proof/WellFormed.lean ====
section
/-!
DEFINITION. Which operations the wire can carry: a frame's discriminant is its row's (30_encoding.md R80), its payload
is exactly dataLength bytes long (R75), a descriptor's type is its row's (R81), a scale value has at most eight bytes
(R123, R128).
-/

namespace Sys2Proof

/-- The payload that follows a header is exactly `dataLength` bytes long (30_encoding.md R75). -/
def FrameHeader.framesPayload (h : FrameHeader) (pay : List Byte) : Bool :=
  pay.length == h.dataLength.toNat

/-- The checks on an operation's operands, one arm per row of the opcode table. -/
def Instr.wellFormed : Instr → Bool
  | .headerDecode _ => true
  | .signalData h pay => h.messageType == 0x0001#16 && h.framesPayload pay
  | .calibration h pay => h.messageType == 0x0008#16 && h.framesPayload pay
  | .discard h pay =>
      h.messageType != 0x0001#16 && h.messageType != 0x0008#16 && h.framesPayload pay
  | .scaleFactor _ _ _ value => decide (value.length ≤ 8)
  | .skipDescriptor _ descriptorType _ _ => descriptorType != 0x0002#16
  | .sample24 _ _ _ => true

end Sys2Proof
end

