-- ==== Sys2Proof/Decode.lean ====
section
/-!
DEFINITION. The Binary Cursor (00_scope.md R10), the header and descriptor decoders, the dispatch on messageType and
descriptorType, a decoder total on any bytes, and the encoder, written from the tables of 30_encoding.md.
-/

namespace Sys2Proof

/-! ### The Binary Cursor (R10) -/

/-- `u8(p,o) = p[o]`. Every caller checks `o < |p|` first, so the value past the end is never used (R10; log 9). -/
def u8 (p : List Byte) (o : Nat) : Byte := p.getD o 0#8

/-- `u16le(p,o)`: the byte at the lower offset is the less significant (R10, R50). -/
def u16le (p : List Byte) (o : Nat) : Bits16 := u8 p (o + 1) ++ u8 p o

/-- `s16le(p,o)`, the two's-complement reading of the same two bytes (R10). -/
def s16le (p : List Byte) (o : Nat) : Int := (u16le p o).toInt

/-- `u32le(p,o)` (R10). -/
def u32le (p : List Byte) (o : Nat) : Bits32 := u16le p (o + 2) ++ u16le p o

/-- `s32le(p,o)`, the two's-complement reading of the same four bytes (R10). -/
def s32le (p : List Byte) (o : Nat) : Int := (u32le p o).toInt

/-- `u64le(p,o)` (R10). -/
def u64le (p : List Byte) (o : Nat) : Bits64 := u32le p (o + 4) ++ u32le p o

/-- `b64le(p,o)`: the same eight bytes kept as bits, for the scale factor (R10, R52). -/
def b64le (p : List Byte) (o : Nat) : Bits64 := u64le p o

/-! ### Little-endian bytes of a field, for the encoder -/

/-- The two bytes of a 16-bit field, lowest first (R50). -/
def bytes16 (v : Bits16) : List Byte := [v.extractLsb' 0 8, v.extractLsb' 8 8]

/-- The four bytes of a 32-bit field, lowest first (R50). -/
def bytes32 (v : Bits32) : List Byte := bytes16 (v.extractLsb' 0 16) ++ bytes16 (v.extractLsb' 16 16)

/-- The eight bytes of a 64-bit field, lowest first (R50). -/
def bytes64 (v : Bits64) : List Byte := bytes32 (v.extractLsb' 0 32) ++ bytes32 (v.extractLsb' 32 32)

/-! ### Format F-HDR (R70, R100) -/

/-- The length of a frame header (R70). -/
def headerBytes : Nat := 28

/-- `decodeHeader(h)`, for 28 bytes: each field at its fixed offset (41_header_decoder.md R100). -/
def decodeHeader (h : List Byte) : FrameHeader where
  magic           := u16le h 0
  headerLength    := u16le h 2
  messageType     := u16le h 4
  reserved1       := u16le h 6
  reserved2       := u32le h 8
  timestampFamily := u32le h 12
  timestamp       := u64le h 16
  dataLength      := u32le h 24

/-- The 28 bytes of a header, the fields packed in table order (R70, R71). -/
def encodeHeader (h : FrameHeader) : List Byte :=
  bytes16 h.magic ++ bytes16 h.headerLength ++ bytes16 h.messageType ++ bytes16 h.reserved1 ++
    bytes32 h.reserved2 ++ bytes32 h.timestampFamily ++ bytes64 h.timestamp ++ bytes32 h.dataLength

/-! ### Format F-FRAME: the dispatch (R80, R166) -/

/-- DISPATCH: all 16 bits of messageType select a frame's operation (44_stream_loop.md R166). -/
def frameInstr (h : FrameHeader) (pay : List Byte) : Instr :=
  if h.messageType = 0x0001#16 then .signalData h pay
  else if h.messageType = 0x0008#16 then .calibration h pay
  else .discard h pay

/-! ### Payload formats F-SIG and F-DESC -/

/-- The head of a signal-data payload of at least 8 bytes (30_encoding.md R72). -/
def signalHead (pay : List Byte) : SignalHead where
  numberOfSignals := u16le pay 0
  reserved        := u16le pay 2
  signalId        := u16le pay 4
  numberOfValues  := u16le pay 6

/-- The head of the descriptor at offset `off`, or none where the payload ends inside it (R73, R127). -/
def descHead (pay : List Byte) (off : Nat) : Option DescHead :=
  if pay.length < off + 8 then none
  else some {
    signalId       := u16le pay off
    descriptorType := u16le pay (off + 2)
    reserved       := u16le pay (off + 4)
    valueLength    := u16le pay (off + 6) }

/-- The bytes a scale descriptor at `off` has for its value: those at off+8..off+15 that the payload holds (R123). -/
def descValue (pay : List Byte) (off : Nat) : List Byte := (pay.drop (off + 8)).take 8

/-- Descriptor dispatch: all 16 bits of descriptorType select the sub-operation (30_encoding.md R81). -/
def descInstr (d : DescHead) (value : List Byte) : Instr :=
  if d.descriptorType = 0x0002#16 then .scaleFactor d.signalId d.reserved d.valueLength value
  else .skipDescriptor d.signalId d.descriptorType d.reserved d.valueLength

/-- The 8 bytes of a descriptor's head (R73). -/
def encodeDescHead (d : DescHead) : List Byte :=
  bytes16 d.signalId ++ bytes16 d.descriptorType ++ bytes16 d.reserved ++ bytes16 d.valueLength

/-! ### The decoder and the encoder -/

/-- Why bytes are not a whole operation of a format. No encoding is illegal (30_encoding.md R82): bytes can only be
too few. -/
inductive DecodeError where
  /-- Fewer than 28 bytes where a header is due (R108). -/
  | headerCut
  /-- Fewer than dataLength bytes after the header (R75). -/
  | payloadCut
  /-- Fewer than 8 bytes where a descriptor's head is due (R127). -/
  | descriptorCut
  /-- Fewer than 3 bytes where a sample group is due (R147). -/
  | sampleCut
  deriving DecidableEq, Repr

/-- The operation the first bytes of `p` are in the given format, with the bytes after it. -/
def decode (f : Format) (p : List Byte) : Except DecodeError (Instr × List Byte) :=
  match f with
  | .header =>
      if p.length < headerBytes then .error .headerCut
      else .ok (.headerDecode (decodeHeader p), p.drop headerBytes)
  | .frame =>
      if p.length < headerBytes then .error .headerCut
      else
        let h := decodeHeader p
        let r := p.drop headerBytes
        if r.length < h.dataLength.toNat then .error .payloadCut
        else .ok (frameInstr h (r.take h.dataLength.toNat), r.drop h.dataLength.toNat)
  | .descriptor =>
      match descHead p 0 with
      | none => .error .descriptorCut
      | some d =>
          .ok (descInstr d (descValue p 0), if d.descriptorType = 0x0002#16 then p.drop 16 else p.drop 8)
  | .sample =>
      match p with
      | b0 :: b1 :: b2 :: r => .ok (.sample24 b0 b1 b2, r)
      | _ => .error .sampleCut

/-- The bytes of an operation, in stream order. -/
def encode : Instr → List Byte
  | .headerDecode h => encodeHeader h
  | .signalData h pay => encodeHeader h ++ pay
  | .calibration h pay => encodeHeader h ++ pay
  | .discard h pay => encodeHeader h ++ pay
  | .scaleFactor sid r vlen value => encodeDescHead ⟨sid, 0x0002#16, r, vlen⟩ ++ value
  | .skipDescriptor sid dtype r vlen => encodeDescHead ⟨sid, dtype, r, vlen⟩
  | .sample24 b0 b1 b2 => [b0, b1, b2]

/-- How many bytes an operation's encoding has: a frame is 28 + dataLength bytes long (R75, R87), a scale descriptor's
read part is its head and its value, a skipped descriptor's is its head alone (R124). -/
def Instr.byteLength : Instr → Nat
  | .headerDecode _ => 28
  | .signalData h _ => 28 + h.dataLength.toNat
  | .calibration h _ => 28 + h.dataLength.toNat
  | .discard h _ => 28 + h.dataLength.toNat
  | .scaleFactor _ _ _ value => 8 + value.length
  | .skipDescriptor _ _ _ _ => 8
  | .sample24 _ _ _ => 3

/-! ### The opcode table's words -/

/-- The `n` low bytes of `w`, lowest first. -/
def lowBytes : Nat → Nat → List Byte
  | 0, _ => []
  | n + 1, w => BitVec.ofNat 8 w :: lowBytes n (w / 256)

/-- The operation a table row's 16-bit discriminant selects (COVERAGE.json E3; DESIGN CHOICE, log 12). 0x0002, the one
descriptorType with a row of its own, is read as a descriptor with zero operands; every other value is read as the
messageType of a frame whose other header bytes are zero, so a frame without payload. -/
def discriminantInstr (k : Bits16) : Option Instr :=
  let r :=
    if k = 0x0002#16 then decode .descriptor (bytes16 0#16 ++ bytes16 k ++ List.replicate 12 0#8)
    else decode .frame (List.replicate 4 0#8 ++ bytes16 k ++ List.replicate 22 0#8)
  match r with
  | .ok (i, _) => some i
  | .error _ => none

/-- The operation `decode` reads from a word of `nbits` bits numbered as spec/opcode_table.json numbers them. Up to 8 bits
are the first byte of a header whose other bytes are zero; 9 to 16 bits are a row's discriminant; 24 bits are a sample group (F-S24), 64 or 128 bits a descriptor (F-DESC) whose value
bytes above the word are 0, 224 bits a header (F-HDR), more than 224 bits a frame (F-FRAME). -/
def decodeTableWord (nbits w : Nat) : Option Instr :=
  if 8 < nbits ∧ nbits ≤ 16 then discriminantInstr (BitVec.ofNat 16 w)
  else
    let r :=
      if nbits = 24 then decode .sample (lowBytes 3 w)
      else if nbits ≤ 8 ∨ nbits = 224 then decode .header (lowBytes 28 w)
      else if nbits < 224 then decode .descriptor (lowBytes 16 w)
      else decode .frame (lowBytes (nbits / 8) w)
    match r with
    | .ok (i, _) => some i
    | .error _ => none

end Sys2Proof
end

