-- ==== Sys2Proof/Config.lean ====
section
/-!
DEFINITION. What is fixed for the machine, and the free values: constants of the protocol instance, the values
`State.reset` uses where the spec supplies none (assumption log 4 and 5), and, with no body, the values the spec
leaves open (assumption log 7).
-/

namespace Sys2Proof

/-- N_CHANNELS of this protocol instance (00_scope.md R5). -/
def Config.nChannels : Nat := 4

/-- The TARGET inputs latched at `State.reset`. DESIGN CHOICE (log 4): R6 gives no default; every channel has one
shared target in this instance, and 1 is the least under which the block takes in a frame. Unsafe: a claim could lean
on it. No statement does. -/
def Config.resetTargets : List Nat := [1, 1, 1, 1]

/-- SAMPLE_CAPACITY at `State.reset`. DESIGN CHOICE (log 5): R7 leaves it OPEN. Unsafe: a claim could lean on it. No
statement does. -/
def Config.resetCapacity : Nat := 4294967296

/-- The reset value of every scale register, the binary64 pattern of 1.0 as R27 and R40 state it. -/
def Config.scaleOne : Bits64 := 0x3FF0000000000000#64

/-- What output scale[c] shows while done = 0: any value (70_reset_and_hazards.md R225, R226; log 7). The first
argument numbers the consumer's reads. -/
opaque Config.openScale : Nat → Nat → Bits64

/-- What output count[c] shows while done = 0: any value (R225, R226; log 7). -/
opaque Config.openCount : Nat → Nat → Nat

/-- What output sample[c][j] shows while done = 0: any value (R225, R226; log 7). -/
opaque Config.openSample : Nat → Nat → Nat → Bits32

/-- What the 16 bits of output fault.sid show while faulted = 1 and its valid bit is 0: R35 states no value (log 7). -/
opaque Config.openSid : Nat → Bits16

end Sys2Proof
end

