-- ==== Sys2Proof/Machine/State.lean ====
section
/-!
DEFINITION. The state of the block as plain data: the record of 10_state.md R21, the configuration of R20, and the
model's own fields for what the producer and the reset pin do next and for the two working variables of the decoders.
-/

namespace Sys2Proof.Machine

/-- The sequencer state (10_state.md R22). -/
inductive Phase where
  | awaitingHeader
  | awaitingPayload
  | done
  | faulted
  deriving DecidableEq, Repr

/-- Which part of the work faulted (R30). -/
inductive DecodeStep where
  | headerRead
  | payloadRead
  | signalDecode
  | calibrationDecode
  deriving DecidableEq, Repr

/-- The fault codes (60_exceptions.md R191). They are the block's own faults, entered as a NEXT state. -/
inductive FaultCode where
  /-- 0x01 (R192). -/
  | endOfStream
  /-- 0x02 (R193). -/
  | streamError
  /-- 0x03 (R194). -/
  | payloadTooShort
  /-- 0x04 (R195). -/
  | descriptorTruncated
  /-- 0x05 (R196). -/
  | channelOutOfRange
  /-- 0x06 (R197). -/
  | sampleBufferOverflow
  deriving DecidableEq, Repr

/-- The record written when a fault is raised (R30, R199). -/
structure FaultRecord where
  code : FaultCode
  step : DecodeStep
  sid  : Option Bits16
  pos  : Nat
  deriving DecidableEq, Repr

/-- One channel's registers (R27, R28). `samples` is oldest first. -/
structure Channel where
  scale   : Bits64
  samples : List Bits32
  deriving DecidableEq, Repr

/-- A channel as reset leaves it (R40). -/
def Channel.reset : Channel := { scale := Config.scaleOne, samples := [] }

/-- The configuration (R20): fixed from reset to the next reset. `targets` holds TARGET[1..N_CHANNELS] in order. -/
structure Cfg where
  nChannels : Nat
  targets   : List Nat
  capacity  : Nat
  deriving DecidableEq, Repr

/-- One stream event (44_stream_loop.md R160). -/
inductive StreamEvent where
  | byte (b : Byte)
  | endOfStream
  | error
  deriving DecidableEq, Repr

/-- The working variables of the decoders' pseudocode, the model's own (log 6): idle at every step boundary. -/
structure Work where
  /-- The scan's `off` of 42_calibration_decoder.md R120, none while no scan runs. -/
  scan : Option Nat
  /-- The samples `vs` of 43_sample_decoder.md R140 assembled so far. -/
  vs   : List Bits32
  deriving DecidableEq, Repr

/-- The working variables between commits. -/
def Work.idle : Work := { scan := none, vs := [] }

/-- A header register of zeros, what `hdr` holds at reset. DESIGN CHOICE (log 3): R40 leaves `hdr` unspecified there,
and no step reads it before it is written. Unsafe: a claim could lean on the zeros. No statement does. -/
def resetHeader : FrameHeader where
  magic := 0
  headerLength := 0
  messageType := 0
  reserved1 := 0
  reserved2 := 0
  timestampFamily := 0
  timestamp := 0
  dataLength := 0

/-- The whole state. The first eight fields are the spec's (R20, R21); `stream`, `ctl` and `work` are the model's. -/
structure State where
  /-- Sequencer state (R22). -/
  phase     : Phase
  /-- Header bytes received so far, in arrival order (R23). -/
  hdrBuf    : List Byte
  /-- Decoded header of the current frame (R24). -/
  hdr       : FrameHeader
  /-- Payload bytes of the current frame received so far, in arrival order (R25). -/
  pay       : List Byte
  /-- Stream bytes consumed since reset (R26). -/
  streamPos : Nat
  /-- The channel register file: channel c, in 1..N_CHANNELS, is entry c-1 (R27, R28, R78). -/
  chan      : List Channel
  /-- The fault register (R30). -/
  fault     : Option FaultRecord
  /-- The configuration, latched at reset (R20, R222). -/
  cfg       : Cfg
  /-- The producer's events not yet consumed, next first (R160; DESIGN CHOICE, log 1). -/
  stream    : List StreamEvent
  /-- What the reset pin does in the coming steps, one entry a step: none is not asserted, `some t` is asserted with
  the TARGET inputs `t`; after the last entry it is not asserted (R36, R220 to R222; DESIGN CHOICE, log 2). -/
  ctl       : List (Option (List Nat))
  /-- The decoders' working variables (DESIGN CHOICE, log 6). -/
  work      : Work
  deriving DecidableEq, Repr

/-- What stops the model itself. The block's own faults are no stop (see `FaultCode`): each of these can come only in
a state that no run of the block reaches. All are safe: the model stops where the block has no such
state. -/
inductive Fault where
  /-- Raised by the channel accesses of SIGNAL_DATA and SCALE_FACTOR where the channel is in 1..N_CHANNELS and the
  channel file has no such entry; safe. -/
  | noSuchChannel (c : Nat)
  /-- Raised by CALIBRATION's scan if it made more passes than R120 bounds them by; safe. -/
  | scanBound
  deriving DecidableEq, Repr

/-- What the model gives no meaning to. -/
inductive Refusal where
  /-- Raised by an arm of `exec` for an operation that has no meaning yet; safe. No arm does. -/
  | notModelled (mnemonic : String)
  /-- Raised by the reset step where the TARGET inputs do not give one value per channel: TARGET is required and has
  no default, and the optional case is refused (00_scope.md R6; D4; log 2); safe. -/
  | targetsMissing
  deriving DecidableEq, Repr

/-- The outcome of an operation or a step. -/
abbrev Result := Host.Outcome State Fault Refusal

/-- The machine right after reset (10_state.md R40), with the configuration of log 4 and 5, nothing offered by the
producer yet and the reset pin released (log 1, 2). No target is 0, so the check of R169 leaves it in AwaitingHeader. -/
def State.reset : State where
  phase := .awaitingHeader
  hdrBuf := []
  hdr := resetHeader
  pay := []
  streamPos := 0
  chan := List.replicate Config.nChannels Channel.reset
  fault := none
  cfg := { nChannels := Config.nChannels, targets := Config.resetTargets, capacity := Config.resetCapacity }
  stream := []
  ctl := []
  work := Work.idle

end Sys2Proof.Machine
end

