-- ==== Sys2Proof/Machine/Operands.lean ====
section
/-!
DEFINITION. The operand forms: the channel operand (30_encoding.md R78), the length operands and the stride (R79;
42_calibration_decoder.md R121), and the sample operand (R74, R77; 43_sample_decoder.md R142).
-/

namespace Sys2Proof.Machine

/-! ### Channels -/

/-- A signalId names a channel only if 1 ≤ s ≤ N_CHANNELS (R78). -/
def Cfg.namesChannel (cfg : Cfg) (sid : Bits16) : Bool :=
  decide (1 ≤ sid.toNat) && decide (sid.toNat ≤ cfg.nChannels)

/-- TARGET[c], for a 1-based channel c (R6). DESIGN CHOICE (log 20): for a channel that `targets` has no entry for it
reads 0. R6 supplies no value and no default, so there is no such channel in the block; unsafe outside `State.Inv`, where
a claim could lean on the 0. -/
def Cfg.target (cfg : Cfg) (c : Nat) : Nat := cfg.targets.getD (c - 1) 0

/-- chan[c], for a 1-based channel c; none where the channel file has no such entry (R78). -/
def State.channel (s : State) (c : Nat) : Option Channel :=
  if c = 0 then none else s.chan[c - 1]?

/-- The samples of channel c (R28). -/
def State.samples (s : State) (c : Nat) : List Bits32 := ((s.channel c).map Channel.samples).getD []

/-- count[c] = |chan[c].samples| (R29). -/
def State.count (s : State) (c : Nat) : Nat := (s.samples c).length

/-! ### Lengths -/

/-- `align4(x) = 4·⌈x/4⌉` (00_scope.md R9). -/
def align4 (x : Nat) : Nat := 4 * ((x + 3) / 4)

/-- `stride(vlen) = 8 + align4(vlen) + 4`, exact, with no wrap-around (42_calibration_decoder.md R121). -/
def stride (vlen : Nat) : Nat := 8 + align4 vlen + 4

/-! ### Samples -/

/-- One 24-bit sample as the contract states it: `sext_32({b2, b1, b0})` (R77, R142). -/
def sample24 (b0 b1 b2 : Byte) : Bits32 := (b2 ++ b1 ++ b0).signExtend 32

/-- The source's form of the same value: `asr32({b2, b1, b0, 0x00}, 8)` (R142, R143). -/
def sample24Shifted (b0 b1 b2 : Byte) : Bits32 := (b2 ++ b1 ++ b0 ++ 0x00#8).sshiftRight 8

end Sys2Proof.Machine
end

