-- ==== Sys2Proof/Machine/Flags.lean ====
section
/-!
DEFINITION. The derived status flags (10_state.md R34), the ready output (44_stream_loop.md R160) and the termination
predicate (R168). None of them is stored.
-/

namespace Sys2Proof.Machine

/-- `running = (phase ∈ {AwaitingHeader, AwaitingPayload})` (R34). -/
def State.running (s : State) : Bool := s.phase == .awaitingHeader || s.phase == .awaitingPayload

/-- `done = (phase = Done)` (R34). -/
def State.isDone (s : State) : Bool := s.phase == .done

/-- `faulted = (phase = Faulted)` (R34). -/
def State.isFaulted (s : State) : Bool := s.phase == .faulted

/-- `in_ready = running` (R160). -/
def State.inReady (s : State) : Bool := s.running

/-- `terminated(cfg, chan)`: every channel's count has reached its target (R168). -/
def State.terminated (s : State) : Bool :=
  (List.range s.cfg.nChannels).all fun k => decide (s.cfg.target (k + 1) ≤ s.count (k + 1))

end Sys2Proof.Machine
end

