-- ==== Sys2Proof/Machine/Ops.lean ====
section
/-!
DEFINITION. The named operations over the state: taking a fault (60_exceptions.md R199), leaving it, which only reset
does (R200; 70_reset_and_hazards.md R220), the channel writes, the working variables, and the end of a commit.
-/

namespace Sys2Proof.Machine

/-- Go on with the next state, or stop as the first part stopped. -/
def andThen (r : Result) (f : State → Result) : Result :=
  match r with
  | .next s => f s
  | .fault e => .fault e
  | .refused e => .refused e

/-! ### Faults (R199, R200) -/

/-- `raise Fault(code, step, sid)`: writes the record with pos = streamPos and enters Faulted (R199). The partial
buffers and the working variables are cleared, as R39 point 3 lets a model do (log 10). -/
def State.raise (s : State) (code : FaultCode) (step : DecodeStep) (sid : Option Bits16) : State :=
  { s with
    phase := .faulted
    fault := some { code := code, step := step, sid := sid, pos := s.streamPos }
    hdrBuf := []
    pay := []
    work := Work.idle }

/-! ### Reset, the only return from Faulted and Done -/

/-- The state before the termination check of reset, with the given configuration (10_state.md R40). What the producer
offers and what the reset pin does later are not the block's and stay. -/
def State.initial (cfg : Cfg) (stream : List StreamEvent) (ctl : List (Option (List Nat))) : State where
  phase := .awaitingHeader
  hdrBuf := []
  hdr := resetHeader
  pay := []
  streamPos := 0
  chan := List.replicate cfg.nChannels Channel.reset
  fault := none
  cfg := cfg
  stream := stream
  ctl := ctl
  work := Work.idle

/-- The termination check of reset: Done at once if the predicate holds (44_stream_loop.md R169). -/
def State.checkTermination (s : State) : State :=
  if s.terminated then { s with phase := .done } else s

/-- `init(cfg)` (R176). -/
def State.init (cfg : Cfg) (stream : List StreamEvent) (ctl : List (Option (List Nat))) : State :=
  (State.initial cfg stream ctl).checkTermination

/-- The configuration after reset: TARGET sampled from the inputs, the rest fixed when the block was built (R222). -/
def Cfg.latch (cfg : Cfg) (targets : List Nat) : Cfg := { cfg with targets := targets }

/-- The reset step (R220, R221): every field at its reset value, the TARGET inputs latched, no event consumed. Inputs
that do not give one value per channel are refused (D4; log 2). -/
def State.takeReset (s : State) (targets : List Nat) : Result :=
  if targets.length = s.cfg.nChannels then .next (State.init (s.cfg.latch targets) s.stream s.ctl)
  else .refused .targetsMissing

/-! ### The stream position (R26) -/

/-- One more stream byte has been consumed (R26). -/
def State.advance (s : State) : State := { s with streamPos := s.streamPos + 1 }

/-! ### The channel register file -/

/-- The channel file with entry c (1-based) replaced. -/
def State.setChannel (s : State) (c : Nat) (ch : Channel) : State :=
  { s with chan := s.chan.set (c - 1) ch }

/-- Read and rewrite one channel; a channel the file has no entry for stops the model. -/
def State.updateChannel (s : State) (c : Nat) (f : Channel → State → Result) : Result :=
  match s.channel c with
  | none => .fault (.noSuchChannel c)
  | some ch => f ch s

/-! ### The decoders' working variables (log 6) -/

/-- The working variables replaced. -/
def State.withWork (s : State) (w : Work) : State := { s with work := w }

/-- `vs` with one more sample at its end (43_sample_decoder.md R140, R144). -/
def State.collect (s : State) (v : Bits32) : State := s.withWork { scan := s.work.scan, vs := s.work.vs ++ [v] }

/-- `off := 0`, a scan begins (42_calibration_decoder.md R120). -/
def State.beginScan (s : State) : State := s.withWork { scan := some 0, vs := s.work.vs }

/-- The scan moves to another offset (R124). -/
def State.scanTo (s : State) (off : Nat) : State := s.withWork { scan := some off, vs := s.work.vs }

/-- The scan ends (R122, R123). -/
def State.endScan (s : State) : State := s.withWork { scan := none, vs := s.work.vs }

/-! ### The end of a commit (R165) -/

/-- After an operation that raised no fault, termination is evaluated: Done, or the next frame's header. After one
that did, the phase stays Faulted (R165, R169). -/
def State.settle (s : State) : State :=
  if s.phase = .faulted then s
  else if s.terminated then { s with phase := .done }
  else { s with phase := .awaitingHeader }

end Sys2Proof.Machine
end

