-- ==== Sys2Proof/Machine/Calibration.lean ====
section
/-!
DEFINITION. The Calibration Decoder's operations (42_calibration_decoder.md): SCALE_FACTOR, SKIP_DESCRIPTOR and
CALIBRATION.
-/

namespace Sys2Proof.Machine

/-- SCALE_FACTOR (R123): the value must lie inside the payload (R128), then the channel must exist (R129), then the
64-bit pattern is stored exactly as read (R131) and the scan ends (R125). valueLength is not consulted (R130). -/
def execScaleFactor (signalId _reserved _valueLength : Bits16) (value : List Byte) (s : State) : Result :=
  if value.length < 8 then .next (s.raise .descriptorTruncated .calibrationDecode (some signalId))
  else if s.cfg.namesChannel signalId = false then
    .next (s.raise .channelOutOfRange .calibrationDecode (some signalId))
  else
    s.updateChannel signalId.toNat fun ch t =>
      .next (t.setChannel signalId.toNat { ch with scale := b64le value 0 }).endScan

/-- SKIP_DESCRIPTOR (R124): the scan moves on by the descriptor's stride. The signalId is never checked (R133). With no
scan running, where the block never runs it, there is no offset to move (log 6): it writes no state and cannot fault. -/
def execSkipDescriptor (_signalId _descriptorType _reserved valueLength : Bits16) (s : State) : Result :=
  match s.work.scan with
  | none => .next s
  | some off => .next (s.scanTo (off + stride valueLength.toNat))

/-- The descriptor scan (R120), the offset in `work.scan`, the checks of each pass in the order of R134. The first
argument bounds the passes: each one returns or moves on by at least 12. -/
def calibrationScan : Nat → List Byte → State → Result
  | 0, _, _ => .fault .scanBound
  | fuel + 1, pay, s =>
      match s.work.scan with
      | none => .next s
      | some off =>
          if pay.length ≤ off then .next s.endScan
          else
            match descHead pay off with
            | none => .next (s.raise .descriptorTruncated .calibrationDecode none)
            | some d =>
                if d.descriptorType = 0x0002#16 then
                  execScaleFactor d.signalId d.reserved d.valueLength (descValue pay off) s
                else
                  andThen (execSkipDescriptor d.signalId d.descriptorType d.reserved d.valueLength s)
                    (calibrationScan fuel pay)

/-- CALIBRATION (R120): scan the payload's descriptors from offset 0, apply the first scale factor, stop. There are at
most ⌊L/12⌋ + 1 passes, and one more that finds the offset at or past L. -/
def execCalibration (_h : FrameHeader) (pay : List Byte) (s : State) : Result :=
  calibrationScan (pay.length / 12 + 2) pay s.beginScan

end Sys2Proof.Machine
end

