-- ==== Sys2Proof/Machine/Discard.lean ====
section
/-!
DEFINITION. The sequencer's own operation on a frame, DISCARD (44_stream_loop.md R167).
-/

namespace Sys2Proof.Machine

/-- DISCARD: `Ok(chan)`, no state written, no fault, the payload's content never read (R167). -/
def execDiscard (_h : FrameHeader) (_pay : List Byte) (s : State) : Result := .next s

end Sys2Proof.Machine
end

