-- ==== Sys2Proof/Machine/Header.lean ====
section
/-!
DEFINITION. The Header Decoder's operation (41_header_decoder.md).
-/

namespace Sys2Proof.Machine

/-- HEADER_DECODE writes `hdr`, and nothing else; it cannot fault (R100, R107). -/
def execHeaderDecode (h : FrameHeader) (s : State) : Result := .next { s with hdr := h }

end Sys2Proof.Machine
end

