-- ==== Sys2Proof/Machine/Sample.lean ====
section
/-!
DEFINITION. The Sample Decoder's operations (43_sample_decoder.md): SAMPLE24 and SIGNAL_DATA.
-/

namespace Sys2Proof.Machine

/-- The sample group i of a signal-data payload: the bytes at 8+3i, 9+3i and 10+3i (20_memory.md R57). -/
def sampleAt (pay : List Byte) (i : Nat) : Bits32 :=
  sample24 (u8 pay (8 + 3 * i)) (u8 pay (9 + 3 * i)) (u8 pay (10 + 3 * i))

/-- SAMPLE24 assembles one sample group. It writes no architectural state: its result joins the samples that
SIGNAL_DATA is assembling (R142; log 6). -/
def execSample24 (b0 b1 b2 : Byte) (s : State) : Result := .next (s.collect (sample24 b0 b1 b2))

/-- The first n sample groups of a payload, assembled in payload order (R140, R144). -/
def collectSamples (pay : List Byte) (n : Nat) (s : State) : State :=
  (List.range n).foldl (fun t i => t.collect (sampleAt pay i)) s

/-- `chan[c].samples := chan[c].samples ++ vs`, and the working variables are idle again (R140). -/
def State.appendCollected (s : State) (c : Nat) (ch : Channel) : State :=
  (s.setChannel c { ch with samples := ch.samples ++ s.work.vs }).withWork Work.idle

/-- SIGNAL_DATA (R140): the checks in their fixed order, then the samples are assembled and appended to the one
channel the payload names. On a fault nothing is appended. -/
def execSignalData (_h : FrameHeader) (pay : List Byte) (s : State) : Result :=
  if pay.length < 8 then .next (s.raise .payloadTooShort .signalDecode none)
  else
    let d := signalHead pay
    let n := d.numberOfValues.toNat
    if pay.length < 8 + 3 * n then .next (s.raise .payloadTooShort .signalDecode (some d.signalId))
    else if s.cfg.namesChannel d.signalId = false then
      .next (s.raise .channelOutOfRange .signalDecode (some d.signalId))
    else
      s.updateChannel d.signalId.toNat fun ch t =>
        if t.cfg.capacity < ch.samples.length + n then
          .next (t.raise .sampleBufferOverflow .signalDecode (some d.signalId))
        else .next ((collectSamples pay n (t.withWork Work.idle)).appendCollected d.signalId.toNat ch)

end Sys2Proof.Machine
end

