-- ==== Sys2Proof/Machine/Dispatch.lean ====
section
/-!
DEFINITION. The meaning of every operation, one arm per constructor of Instr.
-/

namespace Sys2Proof.Machine

def exec (i : Instr) (s : State) : Host.Outcome State Fault Refusal :=
  match i with
  | .headerDecode h => Sys2Proof.Machine.execHeaderDecode h s
  | .signalData h pay => Sys2Proof.Machine.execSignalData h pay s
  | .calibration h pay => Sys2Proof.Machine.execCalibration h pay s
  | .discard h pay => Sys2Proof.Machine.execDiscard h pay s
  | .scaleFactor signalId reserved valueLength value => Sys2Proof.Machine.execScaleFactor signalId reserved valueLength value s
  | .skipDescriptor signalId descriptorType reserved valueLength => Sys2Proof.Machine.execSkipDescriptor signalId descriptorType reserved valueLength s
  | .sample24 b0 b1 b2 => Sys2Proof.Machine.execSample24 b0 b1 b2 s

end Sys2Proof.Machine
end

