-- ==== Sys2Proof/Machine/Sequencer.lean ====
section
/-!
DEFINITION. The Frame Reader / Stream Loop (44_stream_loop.md R160 to R177): what one stream event does, and how an
operation's bytes come to stand where the next step runs it.
-/

namespace Sys2Proof.Machine

/-- Commit (R165): the buffered payload is taken, the frame's operation runs, and unless it raised a fault the
termination condition is evaluated. -/
def State.commit (s : State) : Result :=
  andThen (exec (frameInstr s.hdr s.pay) { s with pay := [] }) fun t => .next t.settle

/-- A byte in AwaitingHeader (R162, R163): the first 27 are buffered, the 28th runs HEADER_DECODE, and a header-only
frame commits in the same step. -/
def State.headerByte (s : State) (b : Byte) : Result :=
  let s := s.advance
  if s.hdrBuf.length < headerBytes - 1 then .next { s with hdrBuf := s.hdrBuf ++ [b] }
  else
    andThen (exec (.headerDecode (decodeHeader (s.hdrBuf ++ [b]))) { s with hdrBuf := [], pay := [] }) fun t =>
      if t.hdr.dataLength = 0#32 then t.commit else .next { t with phase := .awaitingPayload }

/-- A byte in AwaitingPayload (R164): it joins the payload, and the last one commits the frame. -/
def State.payloadByte (s : State) (b : Byte) : Result :=
  let s := { s.advance with pay := s.pay ++ [b] }
  if s.pay.length = s.hdr.dataLength.toNat then s.commit else .next s

/-- The step name a transport event is reported with (R171). -/
def State.readStep (s : State) : DecodeStep :=
  if s.phase = .awaitingHeader then .headerRead else .payloadRead

/-- What an accepted event does while running (R176). Transport events consume no byte (R171). -/
def State.accept (s : State) (ev : StreamEvent) : Result :=
  match ev with
  | .byte b => if s.phase = .awaitingHeader then s.headerByte b else s.payloadByte b
  | .endOfStream => .next (s.raise .endOfStream s.readStep none)
  | .error => .next (s.raise .streamError s.readStep none)

/-- A step without reset. While running the next event is accepted; if none is offered the block waits (R161, R207).
In Done and Faulted no event is accepted and nothing changes (R41, R170, R172; log 11). -/
def State.eventStep (s : State) : Result :=
  if s.running then
    match s.stream with
    | [] => .next s
    | ev :: rest => { s with stream := rest }.accept ev
  else .next s

/-- One step (R12): reset if the pin is asserted, which takes priority (R221), otherwise a stream event. -/
def State.oneStep (s : State) : Result :=
  match s.ctl with
  | [] => s.eventStep
  | none :: rest => { s with ctl := rest }.eventStep
  | some targets :: rest => { s with ctl := rest }.takeReset targets

/-! ### Placing an operation where the next step runs it (log 12, 13) -/

/-- The least frame in whose last step the operation runs: a header or a frame is itself; a descriptor is the whole
payload of a calibration frame; a sample group is the one sample of a signal-data frame for channel 1. -/
def fetchFrame : Instr → List Byte
  | .headerDecode h => encodeHeader h
  | .signalData h pay => encode (.signalData h pay)
  | .calibration h pay => encode (.calibration h pay)
  | .discard h pay => encode (.discard h pay)
  | .scaleFactor sid r vlen value =>
      let p := encode (.scaleFactor sid r vlen value)
      encodeHeader { resetHeader with messageType := 0x0008#16, dataLength := BitVec.ofNat 32 p.length } ++ p
  | .skipDescriptor sid dtype r vlen =>
      let p := encode (.skipDescriptor sid dtype r vlen)
      encodeHeader { resetHeader with messageType := 0x0008#16, dataLength := BitVec.ofNat 32 p.length } ++ p
  | .sample24 b0 b1 b2 =>
      let p := bytes16 1#16 ++ bytes16 0#16 ++ bytes16 1#16 ++ bytes16 1#16 ++ [b0, b1, b2]
      encodeHeader { resetHeader with messageType := 0x0001#16, dataLength := BitVec.ofNat 32 p.length } ++ p

/-- The state in which all but the last byte of a frame has been received and the last one is offered next, with the
reset pin released for that step. -/
def State.preload (s : State) (frame : List Byte) : State :=
  let short := frame.length ≤ headerBytes
  { s with
    phase := if short then .awaitingHeader else .awaitingPayload
    hdrBuf := if short then frame.dropLast else []
    hdr := if short then s.hdr else decodeHeader frame
    pay := if short then [] else (frame.drop headerBytes).dropLast
    streamPos := s.streamPos + (frame.length - 1)
    fault := none
    stream := (frame.drop (frame.length - 1)).map StreamEvent.byte ++ s.stream
    ctl := none :: s.ctl
    work := Work.idle }

/-- `s` with the operation of a table word placed for the very next step. A word the decoder reads nothing from
leaves `s` as it is. -/
def State.placeWord (s : State) (nbits w : Nat) : State :=
  match decodeTableWord nbits w with
  | none => s
  | some i => s.preload (fetchFrame i)

end Sys2Proof.Machine
end

