-- ==== Sys2Proof/Machine/Step.lean ====
section
/-!
DEFINITION. The step function (44_stream_loop.md R176) and where an operation of the opcode table is placed for it.
-/

namespace Sys2Proof.Machine

/-- One step of the block. -/
def step (s : State) : Host.Outcome State Fault Refusal := s.oneStep

/-- `s` with the operation whose bits are `w` placed where the next step runs it (log 12, 13). -/
def State.withFetchWord (s : State) (nbits w : Nat) : State := s.placeWord nbits w

end Sys2Proof.Machine
end

