-- ==== Sys2Proof/Machine/FrameNotation.lean ====
section
/-!
DEFINITION. The frame notation of 30_encoding.md R88 and its byte expansion (R89), as data instead of text. It is a
testing convenience and no rule of the block depends on it. A scale's decimal number is given as its 64-bit pattern:
turning decimals into binary64 is the tester's, not the block's.
-/

namespace Sys2Proof.Machine

/-- One payload item of a FRAME (R88). -/
inductive PayloadItem where
  /-- `SIG sid=.. n=.. nsig=.. r=.. : s24, ...`; `n` defaults to the number of samples. -/
  | sig (sid : Bits16) (n : Option Bits16) (nsig r : Bits16) (samples : List Int)
  /-- `DESC sid=.. type=.. vlen=.. r=.. value=.. trailer=..`. -/
  | desc (sid type vlen r : Bits16) (value trailer : List Byte)
  /-- `SCALE sid=.. f64=..`, the number as its pattern. -/
  | scale (sid : Bits16) (f64 : Bits64)
  /-- `RAW bytes`. -/
  | raw (bytes : List Byte)
  deriving DecidableEq, Repr

/-- One line of a test stream (R88). A FRAME's header is given whole but for dataLength, whose `len` defaults to the
byte length of the items. -/
inductive StreamLine where
  | frame (h : FrameHeader) (len : Option Bits32) (items : List PayloadItem)
  | eos
  | err
  deriving DecidableEq, Repr

/-- The default header fields with a messageType: hlen 28, the rest 0 (R89). -/
def notedHeader (messageType : Bits16) : FrameHeader :=
  { resetHeader with headerLength := 28#16, messageType := messageType }

/-- The three bytes low, mid, high of a sample's 24-bit two's-complement value (R89). -/
def bytes24 (v : Int) : List Byte :=
  let w := BitVec.ofInt 24 v
  [w.extractLsb' 0 8, w.extractLsb' 8 8, w.extractLsb' 16 8]

/-- A descriptor's bytes: head, value, zero bytes up to align4(vlen), trailer (R89). -/
def descBytes (sid type vlen r : Bits16) (value trailer : List Byte) : List Byte :=
  encodeDescHead ⟨sid, type, r, vlen⟩ ++ value ++
    List.replicate (align4 vlen.toNat - value.length) 0#8 ++ trailer

/-- The bytes an item emits (R89). -/
def PayloadItem.bytes : PayloadItem → List Byte
  | .sig sid n nsig r samples =>
      bytes16 nsig ++ bytes16 r ++ bytes16 sid ++ bytes16 (n.getD (BitVec.ofNat 16 samples.length)) ++
        samples.flatMap bytes24
  | .desc sid type vlen r value trailer => descBytes sid type vlen r value trailer
  | .scale sid f64 => descBytes sid 2#16 8#16 0#16 (bytes64 f64) (List.replicate 4 0#8)
  | .raw bytes => bytes

/-- The stream events a line stands for (R88, R89). -/
def StreamLine.events : StreamLine → List StreamEvent
  | .frame h len items =>
      let p := items.flatMap PayloadItem.bytes
      (encodeHeader { h with dataLength := len.getD (BitVec.ofNat 32 p.length) } ++ p).map StreamEvent.byte
  | .eos => [.endOfStream]
  | .err => [.error]

/-- The events of reads of a connection: a read of k bytes is k byte events, a short read no event (44_stream_loop.md
R161). -/
def readEvents (reads : List (List Byte)) : List StreamEvent := reads.flatMap (List.map StreamEvent.byte)

end Sys2Proof.Machine
end

