-- ==== Sys2Proof/Machine/Outputs.lean ====
section
/-!
DEFINITION. The read-only outputs of the block (10_state.md R35) and the bit encodings they use (R22, R30;
60_exceptions.md R191). An output the spec gives no value is a free value of Config (log 7). The argument `k` numbers
the consumer's reads, so that two reads of an open output need not agree.
-/

namespace Sys2Proof.Machine

/-- The phase's 2-bit encoding (R22). -/
def Phase.bits : Phase → BitVec 2
  | .awaitingHeader => 0#2
  | .awaitingPayload => 1#2
  | .done => 2#2
  | .faulted => 3#2

/-- The 2-bit encoding of the faulting step (R30). -/
def DecodeStep.bits : DecodeStep → BitVec 2
  | .headerRead => 0#2
  | .payloadRead => 1#2
  | .signalDecode => 2#2
  | .calibrationDecode => 3#2

/-- The 8-bit fault codes (60_exceptions.md R191). -/
def FaultCode.bits : FaultCode → BitVec 8
  | .endOfStream => 0x01#8
  | .streamError => 0x02#8
  | .payloadTooShort => 0x03#8
  | .descriptorTruncated => 0x04#8
  | .channelOutOfRange => 0x05#8
  | .sampleBufferOverflow => 0x06#8

/-- The fault record as the outputs show it: none while faulted = 0 (R35). -/
def State.shownFault (s : State) : Option FaultRecord := if s.isFaulted then s.fault else none

/-- Output `phase` (R35). -/
def State.outPhase (s : State) : BitVec 2 := s.phase.bits

/-- Output `fault.code`, 0 while faulted = 0 (R35, R191). -/
def State.outFaultCode (s : State) : BitVec 8 := (s.shownFault.map fun r => r.code.bits).getD 0#8

/-- Output `fault.step`, 0 while faulted = 0 (R35). -/
def State.outFaultStep (s : State) : BitVec 2 := (s.shownFault.map fun r => r.step.bits).getD 0#2

/-- The valid bit of output `fault.sid`, 0 while faulted = 0 (R35). -/
def State.outFaultSidValid (s : State) : Bool := (s.shownFault.map fun r => r.sid.isSome).getD false

/-- The 16 bits of output `fault.sid`: the signalId, 0 while faulted = 0, and open where the record holds no signalId
(R35; log 7). -/
def State.outFaultSid (k : Nat) (s : State) : Bits16 :=
  (s.shownFault.map fun r => r.sid.getD (Config.openSid k)).getD 0#16

/-- Output `fault.pos`, 0 while faulted = 0 (R35). -/
def State.outFaultPos (s : State) : Nat := (s.shownFault.map fun r => r.pos).getD 0

/-- Output `count[c]`: the channel's count in Done, any value before it or after a fault (R35; 70 R225, R226; 60 R208).
None for a channel the block does not have. -/
def State.outCount (k c : Nat) (s : State) : Option Nat :=
  (s.channel c).map fun ch => if s.isDone then ch.samples.length else Config.openCount k c

/-- Output `scale[c]`: the raw pattern in Done, any value otherwise (R35; R225, R226; R208). -/
def State.outScale (k c : Nat) (s : State) : Option Bits64 :=
  (s.channel c).map fun ch => if s.isDone then ch.scale else Config.openScale k c

/-- Output `sample[c][j]`: in Done, entry j for j < count[c] and no entry beyond it (R28, R35); any value otherwise
(R225, R226). -/
def State.outSample (k c j : Nat) (s : State) : Option Bits32 :=
  (s.channel c).bind fun ch => if s.isDone then ch.samples[j]? else some (Config.openSample k c j)

end Sys2Proof.Machine
end

