-- ==== Sys2Proof/Safety.lean ====
section
/-!
DEFINITION. What claims speak of: the invariant of a step boundary (10_state.md R39 with R5, R26, R28, R34, R169 and
60_exceptions.md R191, R199), and a run with a valid result (60_exceptions.md R208; 70_reset_and_hazards.md R226).
-/

namespace Sys2Proof.Machine

/-- The codes, steps and signalIds a fault record can join, the table of 60_exceptions.md R191. -/
def FaultRecord.legal (r : FaultRecord) : Bool :=
  match r.code, r.step, r.sid with
  | .endOfStream, .headerRead, none => true
  | .endOfStream, .payloadRead, none => true
  | .streamError, .headerRead, none => true
  | .streamError, .payloadRead, none => true
  | .payloadTooShort, .signalDecode, _ => true
  | .descriptorTruncated, .calibrationDecode, _ => true
  | .channelOutOfRange, .signalDecode, some _ => true
  | .channelOutOfRange, .calibrationDecode, some _ => true
  | .sampleBufferOverflow, .signalDecode, some _ => true
  | _, _, _ => false

/-- A 32-bit pattern that is a sign-extended 24-bit sample (10_state.md R28). -/
def isSample24 (v : Bits32) : Bool := (v.setWidth 24).signExtend 32 == v

/-- What holds at every step boundary. -/
structure State.Inv (s : State) : Prop where
  /-- 1 ≤ N_CHANNELS ≤ 65535 (00_scope.md R5). -/
  channelsInRange : 1 ≤ s.cfg.nChannels ∧ s.cfg.nChannels ≤ 65535
  /-- TARGET has one value per channel (10_state.md R20). -/
  oneTargetEach : s.cfg.targets.length = s.cfg.nChannels
  /-- The channel file has one entry per channel (R21). -/
  oneEntryEach : s.chan.length = s.cfg.nChannels
  /-- R39 point 1. -/
  inHeader : s.phase = .awaitingHeader → s.hdrBuf.length ≤ 27 ∧ s.pay = []
  /-- R39 point 2. -/
  inPayload : s.phase = .awaitingPayload → s.hdrBuf = [] ∧ s.pay.length < s.hdr.dataLength.toNat
  /-- R39 point 3. -/
  atRest : s.running = false → s.hdrBuf = [] ∧ s.pay = []
  /-- R39 point 4. -/
  faultIffFaulted : s.fault ≠ none ↔ s.phase = .faulted
  /-- The record is one of R191's, and its position is the stream position, which no longer moves (R30, R199). -/
  recordLegal : ∀ r, s.fault = some r → r.legal = true ∧ r.pos = s.streamPos
  /-- R39 point 5. -/
  withinCapacity : ∀ ch ∈ s.chan, ch.samples.length ≤ s.cfg.capacity
  /-- Every accumulator entry is a sign-extended 24-bit sample (R28). -/
  samplesSigned : ∀ ch ∈ s.chan, ∀ v ∈ ch.samples, isSample24 v = true
  /-- The bytes of the frame being received have been consumed (R39 point 6). -/
  received : s.hdrBuf.length + s.pay.length ≤ s.streamPos
  /-- The loop goes on while a channel is below its target (44_stream_loop.md R168, R169). -/
  runningUnmet : s.running = true → s.terminated = false
  /-- Done means that every channel has reached its target (R169, R170). -/
  doneMet : s.phase = .done → s.terminated = true
  /-- No decoder is at work between steps (R38). -/
  workIdle : s.work = Work.idle

/-- Every reset still to come supplies one TARGET value per channel (00_scope.md R6). -/
def State.resetsSupplied (s : State) : Bool :=
  s.ctl.all fun r =>
    match r with
    | none => true
    | some targets => targets.length == s.cfg.nChannels

/-- No reset is asserted in the coming step. -/
def State.noReset (s : State) : Bool :=
  match s.ctl with
  | some _ :: _ => false
  | _ => true

/-- The state as the coming step finds it once the reset pin has been read and is not asserted. -/
def State.pinRead (s : State) : State := { s with ctl := s.ctl.tail }

/-! ### Terms the statements use -/

/-- What `k` steps of the machine from `s` answer, stopping at the first stop. -/
def State.after (k : Nat) (s : State) : Result := core.run k s

/-- The little-endian value of `n` bytes at offset `o`: the sum over k of 2^(8k)·p[o+k] (00_scope.md R10). -/
def natLE (p : List Byte) (o : Nat) : Nat → Nat
  | 0 => 0
  | n + 1 => (p.getD o 0#8).toNat + 256 * natLE p (o + 1) n

/-- The outcome takes the block's fault (code, step, sid) from `s` (60_exceptions.md R199): the record is written with
pos = streamPos, the phase is Faulted, the channel state and everything not of the frame being received is kept. -/
def FaultsWith (s : State) (code : FaultCode) (step : DecodeStep) (sid : Option Bits16) (r : Result) : Prop :=
  ∃ t, r = .next t ∧ t.phase = .faulted ∧
    t.fault = some { code := code, step := step, sid := sid, pos := s.streamPos } ∧
    t.chan = s.chan ∧ t.cfg = s.cfg ∧ t.hdr = s.hdr ∧ t.streamPos = s.streamPos ∧
    t.stream = s.stream ∧ t.ctl = s.ctl

/-- A descriptor other than a scale factor, with the bytes after its head (30_encoding.md R73). -/
structure SkipItem where
  head : DescHead
  body : List Byte
  deriving DecidableEq, Repr

/-- The bytes of a skipped descriptor as they stand in the payload. -/
def SkipItem.bytes (x : SkipItem) : List Byte := encodeDescHead x.head ++ x.body

/-- A skipped descriptor that stands whole in the payload: value, padding and trailer are there, so that the next
descriptor begins at its end (42_calibration_decoder.md R121, R124). -/
def SkipItem.whole (x : SkipItem) : Bool :=
  x.head.descriptorType != 0x0002#16 && x.body.length == align4 x.head.valueLength.toNat + 4

/-- A list of whole skipped descriptors laid end to end. -/
def skipBytes (xs : List SkipItem) : List Byte := xs.flatMap SkipItem.bytes

/-- The offset at which the scan of a calibration payload, begun at `off`, stops moving: the first one at which no whole
head stands or the head's type is 2 (42_calibration_decoder.md R120, R122, R124, R125, R127). The first argument bounds
the moves. -/
def scanStop : Nat → List Byte → Nat → Nat
  | 0, _, off => off
  | n + 1, pay, off =>
      match descHead pay off with
      | none => off
      | some d => if d.descriptorType = 0x0002#16 then off else scanStop n pay (off + stride d.valueLength.toNat)

/-- Where the scan of a whole calibration payload stops moving. Each move is at least 12, so there are no more than the
payload has bytes. -/
def scanEnd (pay : List Byte) : Nat := scanStop pay.length pay 0

/-- A safe run ends here: the outputs are valid (60_exceptions.md R208; 70_reset_and_hazards.md R226). -/
def State.resultValid (s : State) : Bool := s.isDone

end Sys2Proof.Machine
end

