-- ==== Sys2Proof/Certificates/Slice0/Obligations.lean ====
section
/-!
DEFINITION. The statements for the provers. Each docstring names the rules of spec/ it formalises.
-/

open Sys2Proof Sys2Proof.Machine

/-! ### Encoding -/

/-- A few words written out from the formats of 30_encoding.md decode to what they stand for: the header with byte i
equal to i (vector H-3), a frame of type 255 (L1-8), a scale descriptor (C-3), a skipped descriptor (C-5), a sample
group (S24-16). That a descriptor as an operation takes only the bytes the block reads of it, and leaves the others of its
stride (R73, R121) over, is the model's choice (assumption log 16). -/
def Obligations.KnownBytesDecode : Prop :=
  decode .header
      [0x00, 0x01, 0x02, 0x03, 0x04, 0x05, 0x06, 0x07, 0x08, 0x09, 0x0A, 0x0B, 0x0C, 0x0D, 0x0E, 0x0F, 0x10, 0x11,
        0x12, 0x13, 0x14, 0x15, 0x16, 0x17, 0x18, 0x19, 0x1A, 0x1B]
    = .ok (.headerDecode
        { magic := 0x0100#16, headerLength := 0x0302#16, messageType := 0x0504#16, reserved1 := 0x0706#16
          reserved2 := 0x0B0A0908#32, timestampFamily := 0x0F0E0D0C#32, timestamp := 0x1716151413121110#64
          dataLength := 0x1B1A1918#32 }, []) ∧
  decode .frame
      [0x00, 0x00, 0x1C, 0x00, 0xFF, 0x00, 0x00, 0x00, 0x00, 0x00, 0x00, 0x00, 0x00, 0x00, 0x00, 0x00, 0x00, 0x00,
        0x00, 0x00, 0x00, 0x00, 0x00, 0x00, 0x03, 0x00, 0x00, 0x00, 0xDE, 0xAD, 0xBE]
    = .ok (.discard { resetHeader with headerLength := 28#16, messageType := 255#16, dataLength := 3#32 }
        [0xDE, 0xAD, 0xBE], []) ∧
  decode .descriptor
      [0x01, 0x00, 0x02, 0x00, 0x00, 0x00, 0x08, 0x00, 0x00, 0x00, 0x00, 0x00, 0x00, 0x00, 0xE0, 0x3F, 0x00, 0x00,
        0x00, 0x00]
    = .ok (.scaleFactor 1#16 0#16 8#16 [0x00, 0x00, 0x00, 0x00, 0x00, 0x00, 0xE0, 0x3F],
        [0x00, 0x00, 0x00, 0x00]) ∧
  decode .descriptor
      [0x01, 0x00, 0x05, 0x00, 0x00, 0x00, 0x03, 0x00, 0xAA, 0xBB, 0xCC, 0x00, 0x00, 0x00, 0x00, 0x00]
    = .ok (.skipDescriptor 1#16 5#16 0#16 3#16, [0xAA, 0xBB, 0xCC, 0x00, 0x00, 0x00, 0x00, 0x00]) ∧
  decode .sample [0xAB, 0xCD, 0xEF] = .ok (.sample24 0xAB 0xCD 0xEF, [])

/-- Decoding an encoded well-formed operation gives it back, for every constructor and every operand value
(30_encoding.md R70, R72 to R75, R80, R81). Which bytes of a descriptor are its operation's is the model's choice
(assumption log 16). -/
def Obligations.DecodeInvertsEncode : Prop :=
  ∀ i : Instr, i.wellFormed = true → decode i.format (encode i) = .ok (i, [])

/-- Whatever the decoder accepts is a well-formed operation of the format asked for, and its encoding with the bytes
left over is exactly the bytes read: no bit is dropped (R70 to R75, R82). Which bytes of a descriptor are left over is the
model's choice (assumption log 16). -/
def Obligations.DecodeAcceptsOnlyEncodings : Prop :=
  ∀ (f : Format) (p rest : List Byte) (i : Instr), decode f p = .ok (i, rest) →
    i.wellFormed = true ∧ i.format = f ∧ encode i ++ rest = p

/-- No encoding is illegal: a format's decoder fails exactly on too few bytes (R82): fewer than a header (R107), than the
header and its payload (R75), than a descriptor's head (R127, R124), than a sample group (R74). That a descriptor needs
its 8-byte head alone, and a scale descriptor of 8 to 15 bytes decodes with a short value, is the model's choice
(assumption log 16). -/
def Obligations.DecodeFailsOnlyOnTooFewBytes : Prop :=
  ∀ p : List Byte,
    ((∃ e, decode .header p = .error e) ↔ p.length < 28) ∧
    ((∃ e, decode .frame p = .error e) ↔ p.length < 28 ∨ p.length < 28 + natLE p 24 4) ∧
    ((∃ e, decode .descriptor p = .error e) ↔ p.length < 8) ∧
    ((∃ e, decode .sample p = .error e) ↔ p.length < 3)

/-- R75: a frame is its header followed at once by exactly dataLength payload bytes, at least 28 and at most
28 + 2^32 - 1 bytes long, and the next frame's header begins at the byte after the payload. -/
def Obligations.FrameIsHeaderThenPayload : Prop :=
  ∀ (h : FrameHeader) (pay rest : List Byte), pay.length = h.dataLength.toNat →
    encode (frameInstr h pay) = encodeHeader h ++ pay ∧
    (encode (frameInstr h pay)).length = 28 + h.dataLength.toNat ∧
    28 + h.dataLength.toNat ≤ 28 + 2 ^ 32 - 1 ∧
    decode .frame (encode (frameInstr h pay) ++ rest) = .ok (frameInstr h pay, rest)

/-- R80 and R81: the dispatches compare all 16 bits. -/
def Obligations.DispatchComparesAllBits : Prop :=
  (∀ (h : FrameHeader) (pay : List Byte),
    (h.messageType.toNat = 1 → frameInstr h pay = .signalData h pay) ∧
    (h.messageType.toNat = 8 → frameInstr h pay = .calibration h pay) ∧
    (h.messageType.toNat ≠ 1 → h.messageType.toNat ≠ 8 → frameInstr h pay = .discard h pay)) ∧
  (∀ (d : DescHead) (value : List Byte),
    (d.descriptorType.toNat = 2 → descInstr d value = .scaleFactor d.signalId d.reserved d.valueLength value) ∧
    (d.descriptorType.toNat ≠ 2 →
      descInstr d value = .skipDescriptor d.signalId d.descriptorType d.reserved d.valueLength))

/-- R10: the cursor reads, as numbers; the signed reads subtract 2^16 or 2^32 from the top bit on. -/
def Obligations.CursorReadsLittleEndian : Prop :=
  ∀ (p : List Byte) (o : Nat),
    (o + 1 ≤ p.length → (u8 p o).toNat = natLE p o 1) ∧
    (o + 2 ≤ p.length → (u16le p o).toNat = natLE p o 2 ∧
      s16le p o = (if 2 ^ 15 ≤ natLE p o 2 then Int.ofNat (natLE p o 2) - 2 ^ 16 else Int.ofNat (natLE p o 2))) ∧
    (o + 4 ≤ p.length → (u32le p o).toNat = natLE p o 4 ∧
      s32le p o = (if 2 ^ 31 ≤ natLE p o 4 then Int.ofNat (natLE p o 4) - 2 ^ 32 else Int.ofNat (natLE p o 4))) ∧
    (o + 8 ≤ p.length → (u64le p o).toNat = natLE p o 8 ∧ b64le p o = u64le p o)

/-! ### HEADER_DECODE -/

/-- R100, R107: any 28 bytes decode; HEADER_DECODE completes in every state, writes each field of `hdr` from its fixed
offset, and nothing else. -/
def Obligations.HeaderDecodeLatchesFields : Prop :=
  ∀ (p : List Byte) (s : State), p.length = 28 →
    ∃ (h : FrameHeader) (t : State), decode .header p = .ok (.headerDecode h, []) ∧
      exec (.headerDecode h) s = .next t ∧
      t.hdr.magic.toNat = natLE p 0 2 ∧
      t.hdr.headerLength.toNat = natLE p 2 2 ∧
      t.hdr.messageType.toNat = natLE p 4 2 ∧
      t.hdr.reserved1.toInt = s16le p 6 ∧
      t.hdr.reserved2.toInt = s32le p 8 ∧
      t.hdr.timestampFamily.toNat = natLE p 12 4 ∧
      t.hdr.timestamp.toNat = natLE p 16 8 ∧
      t.hdr.dataLength.toNat = natLE p 24 4 ∧
      t = { s with hdr := t.hdr }

/-! ### SAMPLE24 and SIGNAL_DATA -/

/-- R77, R142, R143: SAMPLE24 completes in every state. Its result is the sign extension of the 24-bit value
low + 2^8·mid + 2^16·high, and the two forms of R142 agree. R142 says that it writes nothing: that the result joins the
working list `work.vs`, and nothing else changes, is the model's choice (assumption log 6). -/
def Obligations.Sample24SignExtends : Prop :=
  ∀ (b0 b1 b2 : Byte) (s : State),
    ∃ (v : Bits32) (t : State), exec (.sample24 b0 b1 b2) s = .next t ∧
      t = { s with work := { scan := s.work.scan, vs := s.work.vs ++ [v] } } ∧
      v = sample24 b0 b1 b2 ∧ v = sample24Shifted b0 b1 b2 ∧
      v.toInt = (if b0.toNat + 2 ^ 8 * b1.toNat + 2 ^ 16 * b2.toNat < 2 ^ 23
        then Int.ofNat (b0.toNat + 2 ^ 8 * b1.toNat + 2 ^ 16 * b2.toNat)
        else Int.ofNat (b0.toNat + 2 ^ 8 * b1.toNat + 2 ^ 16 * b2.toNat) - 2 ^ 24) ∧
      -8388608 ≤ v.toInt ∧ v.toInt ≤ 8388607

/-- R140, R144, R145, R148, R150, R152, R153: where the payload holds its prefix and its sample region, the signalId
names a channel and the capacity suffices, SIGNAL_DATA completes: the samples of the groups at 8+3i join the one
channel's accumulator in payload order, its count grows by n, and nothing else is written, no scale and no other
channel. -/
def Obligations.SignalDataAppends : Prop :=
  ∀ (h : FrameHeader) (pay : List Byte) (s : State),
    s.chan.length = s.cfg.nChannels → 8 ≤ pay.length → 8 + 3 * natLE pay 6 2 ≤ pay.length →
    1 ≤ natLE pay 4 2 → natLE pay 4 2 ≤ s.cfg.nChannels →
    s.count (natLE pay 4 2) + natLE pay 6 2 ≤ s.cfg.capacity →
    ∃ t, exec (.signalData h pay) s = .next t ∧
      t.samples (natLE pay 4 2) = s.samples (natLE pay 4 2) ++
        (List.range (natLE pay 6 2)).map
          (fun i => sample24 (pay.getD (8 + 3 * i) 0) (pay.getD (9 + 3 * i) 0) (pay.getD (10 + 3 * i) 0)) ∧
      t.count (natLE pay 4 2) = s.count (natLE pay 4 2) + natLE pay 6 2 ∧
      (∀ c, (t.channel c).map Channel.scale = (s.channel c).map Channel.scale) ∧
      (∀ c, c ≠ natLE pay 4 2 → t.channel c = s.channel c) ∧
      t = { s with chan := t.chan, work := Work.idle }

/-- R146, R147, R149, R151, with the order of checks of R201: where SIGNAL_DATA faults, and with what. -/
def Obligations.SignalDataFaultsInOrder : Prop :=
  ∀ (h : FrameHeader) (pay : List Byte) (s : State), s.chan.length = s.cfg.nChannels →
    if pay.length < 8 then
      FaultsWith s .payloadTooShort .signalDecode none (exec (.signalData h pay) s)
    else if pay.length < 8 + 3 * natLE pay 6 2 then
      FaultsWith s .payloadTooShort .signalDecode (some (u16le pay 4)) (exec (.signalData h pay) s)
    else if natLE pay 4 2 < 1 ∨ s.cfg.nChannels < natLE pay 4 2 then
      FaultsWith s .channelOutOfRange .signalDecode (some (u16le pay 4)) (exec (.signalData h pay) s)
    else if s.cfg.capacity < s.count (natLE pay 4 2) + natLE pay 6 2 then
      FaultsWith s .sampleBufferOverflow .signalDecode (some (u16le pay 4)) (exec (.signalData h pay) s)
    else ∃ t, exec (.signalData h pay) s = .next t ∧ t.fault = s.fault ∧ t.phase = s.phase

/-- R148: bytes after the sample region change nothing of what SIGNAL_DATA does. -/
def Obligations.SignalDataIgnoresTrailingBytes : Prop :=
  ∀ (h : FrameHeader) (pay extra : List Byte) (s : State),
    8 ≤ pay.length → 8 + 3 * natLE pay 6 2 ≤ pay.length →
    exec (.signalData h (pay ++ extra)) s = exec (.signalData h pay) s

/-- R144, R145 across frames: after signal-data frames for one channel, committed one after another with their sample
regions inside their payloads and the capacity sufficing, the accumulator is what it was followed by the frames'
samples in frame order, and the count has grown by the sum of their numberOfValues. -/
def Obligations.SignalFramesConcatenate : Prop :=
  ∀ (frames : List (FrameHeader × List Byte)) (c : Nat) (s : State),
    s.chan.length = s.cfg.nChannels → 1 ≤ c → c ≤ s.cfg.nChannels →
    (∀ f ∈ frames, 8 ≤ f.2.length ∧ 8 + 3 * natLE f.2 6 2 ≤ f.2.length ∧ natLE f.2 4 2 = c) →
    s.count c + (frames.map fun f => natLE f.2 6 2).sum ≤ s.cfg.capacity →
    ∃ t, frames.foldl (fun r f => andThen r (exec (.signalData f.1 f.2))) (.next s) = .next t ∧
      t.samples c = s.samples c ++ frames.flatMap (fun f =>
        (List.range (natLE f.2 6 2)).map
          (fun i => sample24 (f.2.getD (8 + 3 * i) 0) (f.2.getD (9 + 3 * i) 0) (f.2.getD (10 + 3 * i) 0))) ∧
      t.count c = s.count c + (frames.map fun f => natLE f.2 6 2).sum ∧
      (∀ d, d ≠ c → t.channel d = s.channel d)

/-! ### SCALE_FACTOR, SKIP_DESCRIPTOR, CALIBRATION -/

/-- R123, R130, R131: with its value inside the payload and a signalId in range, SCALE_FACTOR completes: the channel's
scale register holds the eight value bytes as one little-endian pattern, whatever valueLength says; its samples, every
other channel and everything else but the ended scan are unchanged. -/
def Obligations.ScaleFactorStoresPattern : Prop :=
  ∀ (sid r vl : Bits16) (value : List Byte) (s : State),
    s.chan.length = s.cfg.nChannels → 8 ≤ value.length → 1 ≤ sid.toNat → sid.toNat ≤ s.cfg.nChannels →
    ∃ t, exec (.scaleFactor sid r vl value) s = .next t ∧
      (t.channel sid.toNat).map (fun ch => ch.scale.toNat) = some (natLE value 0 8) ∧
      (∀ c, t.samples c = s.samples c) ∧
      (∀ c, c ≠ sid.toNat → t.channel c = s.channel c) ∧
      t = { s with chan := t.chan, work := { scan := none, vs := s.work.vs } }

/-- R128, R129, R134: where SCALE_FACTOR faults: first a value that is cut off, then a signalId out of range. -/
def Obligations.ScaleFactorFaultsInOrder : Prop :=
  ∀ (sid r vl : Bits16) (value : List Byte) (s : State),
    if value.length < 8 then
      FaultsWith s .descriptorTruncated .calibrationDecode (some sid) (exec (.scaleFactor sid r vl value) s)
    else if sid.toNat < 1 ∨ s.cfg.nChannels < sid.toNat then
      FaultsWith s .channelOutOfRange .calibrationDecode (some sid) (exec (.scaleFactor sid r vl value) s)
    else s.chan.length = s.cfg.nChannels →
      ∃ t, exec (.scaleFactor sid r vl value) s = .next t ∧ t.fault = s.fault ∧ t.phase = s.phase

/-- R121, R124: while a scan runs, SKIP_DESCRIPTOR completes for every signalId and moves the scan by the stride
8 + align4(valueLength) + 4: a multiple of 4, at least 12, at most 65548; nothing else changes. With no scan running,
which the block never has there, it changes nothing (the model's choice, assumption log 6). -/
def Obligations.SkipDescriptorMovesByStride : Prop :=
  ∀ (sid dt r vl : Bits16) (s : State),
    (∀ off, s.work.scan = some off →
      ∃ (k : Nat) (t : State), exec (.skipDescriptor sid dt r vl) s = .next t ∧
        k % 4 = 0 ∧ vl.toNat + 12 ≤ k ∧ k < vl.toNat + 16 ∧ 12 ≤ k ∧ k ≤ 65548 ∧
        t = { s with work := { scan := some (off + k), vs := s.work.vs } }) ∧
    (s.work.scan = none → exec (.skipDescriptor sid dt r vl) s = .next s)

/-- The model's own stop (assumption log 14), which no run of the block reaches: a channel in 1..N_CHANNELS the channel
file has no entry for. -/
def Obligations.MissingChannelEntryStops : Prop :=
  (∀ (sid r vl : Bits16) (value : List Byte) (s : State), 8 ≤ value.length → 1 ≤ sid.toNat →
    sid.toNat ≤ s.cfg.nChannels → s.chan.length < sid.toNat →
    exec (.scaleFactor sid r vl value) s = .fault (.noSuchChannel sid.toNat)) ∧
  (∀ (h : FrameHeader) (pay : List Byte) (s : State), 8 ≤ pay.length → 8 + 3 * natLE pay 6 2 ≤ pay.length →
    1 ≤ natLE pay 4 2 → natLE pay 4 2 ≤ s.cfg.nChannels → s.chan.length < natLE pay 4 2 →
    exec (.signalData h pay) s = .fault (.noSuchChannel (natLE pay 4 2)))

/-- R120, R122, R123, R125, R127 to R132, R134: what CALIBRATION does on any payload whatever, by the offset `scanEnd pay`
at which its scan stops moving. At or past the payload's end nothing changes. Within 8 bytes of it a head is cut off.
Otherwise a scale descriptor stands there, the first in scan order: its value may be cut off, its signalId may name no
channel, and else that one channel's scale register holds its eight value bytes; no sample, no count, no other channel
and nothing else changes. The ended scan is the model's own variable (assumption log 6). -/
def Obligations.CalibrationWritesAtMostOneScale : Prop :=
  ∀ (h : FrameHeader) (pay : List Byte) (s : State), s.chan.length = s.cfg.nChannels →
    if pay.length ≤ scanEnd pay then
      exec (.calibration h pay) s = .next { s with work := { scan := none, vs := s.work.vs } }
    else if pay.length < scanEnd pay + 8 then
      FaultsWith s .descriptorTruncated .calibrationDecode none (exec (.calibration h pay) s)
    else if pay.length < scanEnd pay + 16 then
      FaultsWith s .descriptorTruncated .calibrationDecode (some (u16le pay (scanEnd pay)))
        (exec (.calibration h pay) s)
    else if natLE pay (scanEnd pay) 2 < 1 ∨ s.cfg.nChannels < natLE pay (scanEnd pay) 2 then
      FaultsWith s .channelOutOfRange .calibrationDecode (some (u16le pay (scanEnd pay)))
        (exec (.calibration h pay) s)
    else
      natLE pay (scanEnd pay + 2) 2 = 2 ∧
      ∃ t, exec (.calibration h pay) s = .next t ∧
        (t.channel (natLE pay (scanEnd pay) 2)).map (fun ch => ch.scale.toNat) = some (natLE pay (scanEnd pay + 8) 8) ∧
        (∀ c, t.samples c = s.samples c ∧ t.count c = s.count c) ∧
        (∀ c, c ≠ natLE pay (scanEnd pay) 2 → t.channel c = s.channel c) ∧
        t = { s with chan := t.chan, work := { scan := none, vs := s.work.vs } }

/-- R120, R121, R123 to R125, R130, R133: a payload of whole skipped descriptors, whatever channels they name, then a
scale descriptor with its value inside the payload and a channel in range, then any bytes: CALIBRATION completes and
that one scale register holds that value; nothing else is written, and the bytes after the value, further scale
descriptors among them, are not read. -/
def Obligations.CalibrationAppliesFirstScale : Prop :=
  ∀ (h : FrameHeader) (xs : List SkipItem) (sid r vl : Bits16) (value tail : List Byte) (s : State),
    s.chan.length = s.cfg.nChannels → (∀ x ∈ xs, x.whole = true) → value.length = 8 →
    1 ≤ sid.toNat → sid.toNat ≤ s.cfg.nChannels →
    ∃ t, exec (.calibration h (skipBytes xs ++ encodeDescHead ⟨sid, 0x0002#16, r, vl⟩ ++ value ++ tail)) s = .next t ∧
      (t.channel sid.toNat).map (fun ch => ch.scale.toNat) = some (natLE value 0 8) ∧
      (∀ c, t.samples c = s.samples c) ∧
      (∀ c, c ≠ sid.toNat → t.channel c = s.channel c) ∧
      t = { s with chan := t.chan, work := { scan := none, vs := s.work.vs } }

/-- R122, R124, R126: a payload with no scale descriptor in scan order, its last descriptor whole or with a stride that
reaches or passes the payload's end, leaves everything as it was and raises no fault. -/
def Obligations.CalibrationWithoutScaleChangesNothing : Prop :=
  ∀ (h : FrameHeader) (xs : List SkipItem) (last : SkipItem) (s : State),
    (∀ x ∈ xs, x.whole = true) → last.head.descriptorType ≠ 0x0002#16 →
    last.body.length ≤ align4 last.head.valueLength.toNat + 4 →
    exec (.calibration h (skipBytes xs)) s = .next { s with work := { scan := none, vs := s.work.vs } } ∧
    exec (.calibration h (skipBytes xs ++ last.bytes)) s = .next { s with work := { scan := none, vs := s.work.vs } }

/-- R127: one to seven bytes where the next descriptor's head is due. -/
def Obligations.CalibrationCutHeadFaults : Prop :=
  ∀ (h : FrameHeader) (xs : List SkipItem) (cut : List Byte) (s : State),
    (∀ x ∈ xs, x.whole = true) → 1 ≤ cut.length → cut.length ≤ 7 →
    FaultsWith s .descriptorTruncated .calibrationDecode none (exec (.calibration h (skipBytes xs ++ cut)) s)

/-- R128, R129, R134: the first scale descriptor's value cut off by the payload's end, then its signalId out of
range. -/
def Obligations.CalibrationScaleFaultsInOrder : Prop :=
  ∀ (h : FrameHeader) (xs : List SkipItem) (sid r vl : Bits16) (tail : List Byte) (s : State),
    (∀ x ∈ xs, x.whole = true) →
    (tail.length < 8 →
      FaultsWith s .descriptorTruncated .calibrationDecode (some sid)
        (exec (.calibration h (skipBytes xs ++ encodeDescHead ⟨sid, 0x0002#16, r, vl⟩ ++ tail)) s)) ∧
    (8 ≤ tail.length → sid.toNat < 1 ∨ s.cfg.nChannels < sid.toNat →
      FaultsWith s .channelOutOfRange .calibrationDecode (some sid)
        (exec (.calibration h (skipBytes xs ++ encodeDescHead ⟨sid, 0x0002#16, r, vl⟩ ++ tail)) s))

/-! ### DISCARD -/

/-- R167: DISCARD completes in every state, whatever its header and payload, and changes nothing; so the step that
takes the last payload byte of a frame of any messageType but 1 and 8 only consumes that byte and evaluates
termination. -/
def Obligations.DiscardChangesNothing : Prop :=
  (∀ (h : FrameHeader) (pay : List Byte) (s : State), exec (.discard h pay) s = .next s) ∧
  (∀ (s : State) (b : Byte) (rest : List StreamEvent),
    s.noReset = true → s.phase = .awaitingPayload → s.stream = .byte b :: rest →
    s.pay.length + 1 = s.hdr.dataLength.toNat →
    s.hdr.messageType.toNat ≠ 1 → s.hdr.messageType.toNat ≠ 8 →
    step s = .next { s.pinRead with
      stream := rest, pay := [], streamPos := s.streamPos + 1
      phase := if s.terminated then .done else .awaitingHeader })

/-! ### The sequencer: which operation a step runs -/

/-- R163, R166: the step that takes the 28th header byte runs the operation those 28 bytes decode to, and then commits
a header-only frame or awaits the payload. -/
def Obligations.StepRunsTheDecodedHeader : Prop :=
  ∀ (s : State) (b : Byte) (rest : List StreamEvent) (i : Instr),
    s.noReset = true → s.phase = .awaitingHeader → s.stream = .byte b :: rest → s.hdrBuf.length = 27 →
    decode .header (s.hdrBuf ++ [b]) = .ok (i, []) →
    step s = andThen
      (exec i { s.pinRead with stream := rest, streamPos := s.streamPos + 1, hdrBuf := [], pay := [] })
      (fun t => if t.hdr.dataLength = 0#32 then t.commit else .next { t with phase := .awaitingPayload })

/-- R164, R165, R166: the step that takes a frame's last payload byte runs the operation the frame's bytes decode to,
then clears nothing but the payload buffer and evaluates termination; and the commit of a header-only frame does the
same with an empty payload. -/
def Obligations.StepRunsTheDecodedFrame : Prop :=
  (∀ (s : State) (b : Byte) (rest : List StreamEvent) (i : Instr),
    s.noReset = true → s.phase = .awaitingPayload → s.stream = .byte b :: rest →
    s.pay.length + 1 = s.hdr.dataLength.toNat →
    decode .frame (encodeHeader s.hdr ++ (s.pay ++ [b])) = .ok (i, []) →
    step s = andThen (exec i { s.pinRead with stream := rest, streamPos := s.streamPos + 1, pay := [] })
      (fun t => .next t.settle)) ∧
  (∀ (s : State) (i : Instr), s.pay = [] → decode .frame (encodeHeader s.hdr) = .ok (i, []) →
    s.commit = andThen (exec i s) (fun t => .next t.settle))

/-- R162: one of the first 27 header bytes is buffered, the position advances, nothing else changes. -/
def Obligations.HeaderByteIsBuffered : Prop :=
  ∀ (s : State) (b : Byte) (rest : List StreamEvent),
    s.noReset = true → s.phase = .awaitingHeader → s.stream = .byte b :: rest → s.hdrBuf.length ≤ 26 →
    step s = .next { s.pinRead with stream := rest, hdrBuf := s.hdrBuf ++ [b], streamPos := s.streamPos + 1 }

/-- R163: the 28th header byte latches the header, empties the header buffer, and the phase becomes AwaitingPayload
with an empty payload, or a frame with dataLength 0 commits in the same step. -/
def Obligations.HeaderCompletionLatchesHeader : Prop :=
  ∀ (s : State) (b : Byte) (rest : List StreamEvent),
    s.noReset = true → s.phase = .awaitingHeader → s.stream = .byte b :: rest → s.hdrBuf.length = 27 →
    (natLE (s.hdrBuf ++ [b]) 24 4 ≠ 0 →
      step s = .next { s.pinRead with
        stream := rest, hdr := decodeHeader (s.hdrBuf ++ [b]), hdrBuf := [], pay := []
        streamPos := s.streamPos + 1, phase := .awaitingPayload }) ∧
    (natLE (s.hdrBuf ++ [b]) 24 4 = 0 →
      step s = State.commit { s.pinRead with
        stream := rest, hdr := decodeHeader (s.hdrBuf ++ [b]), hdrBuf := [], pay := []
        streamPos := s.streamPos + 1 })

/-- R164: a payload byte joins the payload and the position advances, whatever messageType is; the byte that makes the
payload dataLength long commits the frame in the same step. -/
def Obligations.PayloadByteIsBuffered : Prop :=
  ∀ (s : State) (b : Byte) (rest : List StreamEvent),
    s.noReset = true → s.phase = .awaitingPayload → s.stream = .byte b :: rest →
    (s.pay.length + 1 ≠ s.hdr.dataLength.toNat →
      step s = .next { s.pinRead with stream := rest, pay := s.pay ++ [b], streamPos := s.streamPos + 1 }) ∧
    (s.pay.length + 1 = s.hdr.dataLength.toNat →
      step s = State.commit { s.pinRead with
        stream := rest, pay := s.pay ++ [b], streamPos := s.streamPos + 1 })

/-- R165, R168, R169: after a step that completes a frame without a fault the block is Done exactly if every channel's
count has reached its target, and otherwise in AwaitingHeader. -/
def Obligations.CommitEndsExactlyAtTheTargets : Prop :=
  ∀ (s t : State) (b : Byte) (rest : List StreamEvent), s.Inv → s.noReset = true → s.stream = .byte b :: rest →
    ((s.phase = .awaitingPayload ∧ s.pay.length + 1 = s.hdr.dataLength.toNat) ∨
      (s.phase = .awaitingHeader ∧ s.hdrBuf.length = 27 ∧ natLE (s.hdrBuf ++ [b]) 24 4 = 0)) →
    step s = .next t → t.phase ≠ .faulted →
    t.pay = [] ∧ t.hdrBuf = [] ∧
    ((∀ c, 1 ≤ c → c ≤ t.cfg.nChannels → t.cfg.target c ≤ t.count c) → t.phase = .done) ∧
    ((∃ c, 1 ≤ c ∧ c ≤ t.cfg.nChannels ∧ t.count c < t.cfg.target c) → t.phase = .awaitingHeader)

/-- R171, R192, R193: end-of-stream and an error while running raise their codes with the step of the phase and no
signalId; the position does not move. -/
def Obligations.TransportEventsFault : Prop :=
  ∀ (s : State) (rest : List StreamEvent), s.noReset = true →
    (s.phase = .awaitingHeader → s.stream = .endOfStream :: rest →
      FaultsWith { s.pinRead with stream := rest } .endOfStream .headerRead none (step s)) ∧
    (s.phase = .awaitingHeader → s.stream = .error :: rest →
      FaultsWith { s.pinRead with stream := rest } .streamError .headerRead none (step s)) ∧
    (s.phase = .awaitingPayload → s.stream = .endOfStream :: rest →
      FaultsWith { s.pinRead with stream := rest } .endOfStream .payloadRead none (step s)) ∧
    (s.phase = .awaitingPayload → s.stream = .error :: rest →
      FaultsWith { s.pinRead with stream := rest } .streamError .payloadRead none (step s))

/-- R41, R170, R172, R200: in Done and in Faulted, without reset, a step changes no field and consumes no event: only
the model's own list of what the reset pin does moves on (assumption log 2). The spec gives no step there (R176); that
the step function answers the same state is the model's choice (assumption log 11). -/
def Obligations.DoneAndFaultedHold : Prop :=
  ∀ s : State, s.noReset = true → s.phase = .done ∨ s.phase = .faulted → step s = .next s.pinRead

/-- R161, R207: while running with no event offered, the block waits. That the wait is a step that changes nothing is the
model's choice (assumption log 11), so that with R41 the statement also holds in Done and Faulted. -/
def Obligations.RunningWaitsForAnEvent : Prop :=
  ∀ s : State, s.noReset = true → s.stream = [] → step s = .next s.pinRead

/-! ### Reset -/

/-- R220, R221, R222, R40: reset, in every phase and whatever event is offered, puts the state to its reset values with the TARGET
inputs latched, consumes no event, and leaves the block in AwaitingHeader, or in Done if every target is 0. -/
def Obligations.ResetInitialises : Prop :=
  ∀ (s : State) (targets : List Nat) (rest : List (Option (List Nat))),
    s.ctl = some targets :: rest → targets.length = s.cfg.nChannels →
    ∃ t, step s = .next t ∧
      t.hdrBuf = [] ∧ t.pay = [] ∧ t.streamPos = 0 ∧ t.fault = none ∧
      t.chan = List.replicate s.cfg.nChannels { scale := 0x3FF0000000000000#64, samples := [] } ∧
      t.cfg = { s.cfg with targets := targets } ∧ t.stream = s.stream ∧ t.ctl = rest ∧
      ((∀ n ∈ targets, n = 0) → t.phase = .done) ∧
      ((∃ n ∈ targets, n ≠ 0) → t.phase = .awaitingHeader)

/-- The model's choice (assumption log 2, from R6 and D4): a reset whose inputs do not give one TARGET value per channel
is refused by name. -/
def Obligations.ResetWithoutTargetsIsRefused : Prop :=
  ∀ (s : State) (targets : List Nat) (rest : List (Option (List Nat))),
    s.ctl = some targets :: rest → targets.length ≠ s.cfg.nChannels → step s = .refused .targetsMissing

/-- R40: what reset leaves, but for `hdr`, which the spec leaves unspecified; the phase is AwaitingHeader, or Done if
every target is 0. -/
def Obligations.ResetStateValues : Prop :=
  State.reset.hdrBuf = [] ∧ State.reset.pay = [] ∧ State.reset.streamPos = 0 ∧ State.reset.fault = none ∧
  State.reset.chan.length = 4 ∧
  (∀ c, 1 ≤ c → c ≤ 4 → State.reset.channel c = some { scale := 0x3FF0000000000000#64, samples := [] } ∧
    State.reset.count c = 0) ∧
  (State.reset.phase = if State.reset.cfg.targets.all (· == 0) then .done else .awaitingHeader)

/-! ### Invariants and rules of the whole machine -/

/-- The invariant of a step boundary holds at `State.reset`. The configuration of `State.reset` is the model's choice
(assumption log 4 and 5). -/
def Obligations.ResetMeetsTheInvariant : Prop := State.reset.Inv

/-- R39 with R5, R26, R28, R34, R38, R169, R191 and R199: every step from a state that meets the invariant of a step
boundary gives a state that meets it. -/
def Obligations.StepKeepsTheInvariant : Prop :=
  ∀ s t : State, s.Inv → step s = .next t → t.Inv

/-- From a state that meets the invariant no step stops: it answers a next state, for every event and every reset with
its targets. In Done, in Faulted and with no event offered the spec gives no step (R176): that the step function answers
the same state there is the model's choice (assumption log 11), and so are the list of what the reset pin does and the
premise that each reset in it supplies its targets (assumption log 2). -/
def Obligations.StepAlwaysAnswersNext : Prop :=
  ∀ s : State, s.Inv → s.resetsSupplied = true → ∃ t, step s = .next t ∧ t.resetsSupplied = true

/-- R60, R165, R199: a step that ends in Faulted from a running state wrote no channel; its record is one of R191's, with
pos the position after the step, which counts the faulting frame's last byte for a decode fault and has not moved for a
transport fault. -/
def Obligations.FaultingStepWritesNoChannel : Prop :=
  ∀ s t : State, s.Inv → s.noReset = true → s.running = true → step s = .next t → t.phase = .faulted →
    t.chan = s.chan ∧ t.cfg = s.cfg ∧
    ∃ r, t.fault = some r ∧ r.legal = true ∧ r.pos = t.streamPos ∧
      (r.code = .endOfStream ∨ r.code = .streamError → t.streamPos = s.streamPos) ∧
      (r.code ≠ .endOfStream → r.code ≠ .streamError → t.streamPos = s.streamPos + 1)

/-- R28, R29: between resets an accumulator is only appended to and no count decreases. -/
def Obligations.AccumulatorsOnlyGrow : Prop :=
  ∀ s t : State, s.Inv → s.noReset = true → step s = .next t →
    ∀ c, s.samples c <+: t.samples c ∧ s.count c ≤ t.count c

/-- R26: the stream position increases by exactly 1 with each byte consumed and by nothing else, and events are consumed
only while running, one a step. -/
def Obligations.StreamPosCountsBytes : Prop :=
  ∀ s t : State, s.noReset = true → step s = .next t →
    (∃ b, s.running = true ∧ s.stream = .byte b :: t.stream ∧ t.streamPos = s.streamPos + 1) ∨
    (s.running = true ∧ (s.stream = .endOfStream :: t.stream ∨ s.stream = .error :: t.stream) ∧
      t.streamPos = s.streamPos) ∨
    (t.stream = s.stream ∧ t.streamPos = s.streamPos ∧ (s.running = false ∨ s.stream = []))

/-- R20, R222: no step but reset changes the configuration, and reset changes the targets alone. -/
def Obligations.ConfigurationFixedBetweenResets : Prop :=
  ∀ s t : State, step s = .next t →
    (s.noReset = true → t.cfg = s.cfg) ∧
    t.cfg.nChannels = s.cfg.nChannels ∧ t.cfg.capacity = s.cfg.capacity

/-- R163 to R166, R173, R174: from a frame boundary, feeding a whole frame of any type and length runs, in as many steps
as it has bytes, exactly the operation it encodes, with the position moved past the frame; the events after it are not
touched. -/
def Obligations.WholeFrameRunsItsOperation : Prop :=
  ∀ (h : FrameHeader) (pay : List Byte) (rest : List StreamEvent) (s : State),
    s.phase = .awaitingHeader → s.hdrBuf = [] → s.ctl = [] → pay.length = h.dataLength.toNat →
    s.stream = (encode (frameInstr h pay)).map StreamEvent.byte ++ rest →
    s.after (28 + pay.length) = andThen
      (exec (frameInstr h pay) { s with
        hdr := h, hdrBuf := [], pay := [], stream := rest, streamPos := s.streamPos + (28 + pay.length)
        phase := if pay = [] then .awaitingHeader else .awaitingPayload })
      (fun t => .next t.settle)

/-- R83, R84, R101 to R105: what the six header fields other than messageType and dataLength hold makes no difference to
any step, but for what `hdr` itself holds. -/
def Obligations.HeldHeaderFieldsMakeNoDifference : Prop :=
  ∀ (s t : State) (h : FrameHeader),
    h.messageType = s.hdr.messageType → h.dataLength = s.hdr.dataLength → step s = .next t →
    ∃ t', step { s with hdr := h } = .next t' ∧ t' = { t with hdr := t'.hdr } ∧
      t'.hdr.messageType = t.hdr.messageType ∧ t'.hdr.dataLength = t.hdr.dataLength

/-- R230, first case: with a target above the capacity the block is never Done. -/
def Obligations.TargetAboveCapacityIsNeverDone : Prop :=
  ∀ (s : State) (c : Nat), s.Inv → 1 ≤ c → c ≤ s.cfg.nChannels → s.cfg.capacity < s.cfg.target c →
    s.phase ≠ .done ∧ ∀ t, s.noReset = true → step s = .next t → t.phase ≠ .done

/-- R161: a block that has been offered some reads, steps once for each of their bytes and then waits for any number of
steps with nothing more offered, and is then offered the other reads and any events, comes to what it comes to if all is
offered at once. So a short read is no event. The step that waits is the model's (assumption log 11). -/
def Obligations.ChunkingIsInvisible : Prop :=
  ∀ (reads reads' : List (List Byte)) (rest : List StreamEvent) (s : State) (waits k : Nat), s.ctl = [] →
    andThen (State.after (reads.flatten.length + waits) { s with stream := readEvents reads })
        (fun t => State.after k { t with stream := t.stream ++ (readEvents reads' ++ rest) }) =
      State.after (reads.flatten.length + k) { s with stream := readEvents reads ++ (readEvents reads' ++ rest) }

/-! ### Outputs -/

/-- R34, R22, R35, R160: exactly one of running, done and faulted is true, in every state; the ready output is running,
and output `phase` has the encoding of R22. -/
def Obligations.ExactlyOneStatusFlag : Prop :=
  ∀ s : State,
    (s.running = true ↔ s.phase = .awaitingHeader ∨ s.phase = .awaitingPayload) ∧
    (s.isDone = true ↔ s.phase = .done) ∧ (s.isFaulted = true ↔ s.phase = .faulted) ∧
    ((s.running = true ∧ s.isDone = false ∧ s.isFaulted = false) ∨
      (s.running = false ∧ s.isDone = true ∧ s.isFaulted = false) ∨
      (s.running = false ∧ s.isDone = false ∧ s.isFaulted = true)) ∧
    s.inReady = s.running ∧
    (s.phase = .awaitingHeader → s.outPhase.toNat = 0) ∧ (s.phase = .awaitingPayload → s.outPhase.toNat = 1) ∧
    (s.phase = .done → s.outPhase.toNat = 2) ∧ (s.phase = .faulted → s.outPhase.toNat = 3)

/-- R35, R191, R30: the fault outputs are 0 while faulted = 0; in Faulted they show the record, its code as the value of
R191 and its step as the value of R30, and the signalId's 16 bits are open where the record holds none. -/
def Obligations.FaultOutputsShowTheRecord : Prop :=
  ∀ (s : State) (k : Nat), s.Inv →
    (s.isFaulted = false → s.outFaultCode = 0 ∧ s.outFaultStep = 0 ∧ s.outFaultSidValid = false ∧
      s.outFaultSid k = 0 ∧ s.outFaultPos = 0) ∧
    (s.isFaulted = true → ∃ r, s.fault = some r ∧
      (r.code = .endOfStream → s.outFaultCode.toNat = 1) ∧ (r.code = .streamError → s.outFaultCode.toNat = 2) ∧
      (r.code = .payloadTooShort → s.outFaultCode.toNat = 3) ∧
      (r.code = .descriptorTruncated → s.outFaultCode.toNat = 4) ∧
      (r.code = .channelOutOfRange → s.outFaultCode.toNat = 5) ∧
      (r.code = .sampleBufferOverflow → s.outFaultCode.toNat = 6) ∧
      (r.step = .headerRead → s.outFaultStep.toNat = 0) ∧ (r.step = .payloadRead → s.outFaultStep.toNat = 1) ∧
      (r.step = .signalDecode → s.outFaultStep.toNat = 2) ∧ (r.step = .calibrationDecode → s.outFaultStep.toNat = 3) ∧
      s.outFaultSidValid = r.sid.isSome ∧ (∀ sid, r.sid = some sid → s.outFaultSid k = sid) ∧
      s.outFaultPos = s.streamPos)

/-- R208, R28: in Done the channel outputs of each channel are its count, its scale pattern and its samples in order. -/
def Obligations.DoneOutputsAreTheResult : Prop :=
  ∀ (s : State) (k c : Nat), s.Inv → s.phase = .done → 1 ≤ c → c ≤ s.cfg.nChannels →
    ∃ ch, s.channel c = some ch ∧ s.outCount k c = some (s.count c) ∧ s.outScale k c = some ch.scale ∧
      ∀ j, s.outSample k c j = (s.samples c)[j]?
end

