-- ==== Sys2Proof/Laws/Bytes.lean ====
section
/-!
SUPPORT. The Binary Cursor and the encoder's bytes, field by field: reading what was written, and the numbers the reads
stand for. Proofs about whole formats cite these and do not unfold a read.
-/

namespace Sys2Proof

@[simp] theorem bytes16_length (v : Bits16) : (bytes16 v).length = 2 := by simp [bytes16]
@[simp] theorem bytes32_length (v : Bits32) : (bytes32 v).length = 4 := by simp [bytes32]
@[simp] theorem bytes64_length (v : Bits64) : (bytes64 v).length = 8 := by simp [bytes64]
@[simp] theorem encodeHeader_length (h : FrameHeader) : (encodeHeader h).length = 28 := by simp [encodeHeader]
@[simp] theorem encodeDescHead_length (d : DescHead) : (encodeDescHead d).length = 8 := by simp [encodeDescHead]

theorem halves16 (v : Bits16) : (v.extractLsb' 8 8 ++ v.extractLsb' 0 8 : BitVec 16) = v := by
  apply BitVec.eq_of_getLsbD_eq
  intro i hi
  simp only [BitVec.getLsbD_append, BitVec.getLsbD_extractLsb']
  by_cases h : i < 8
  · simp [h]
  · simp [h, show i - 8 < 8 by omega, show 8 + (i - 8) = i by omega]

theorem halves32 (v : Bits32) : (v.extractLsb' 16 16 ++ v.extractLsb' 0 16 : BitVec 32) = v := by
  apply BitVec.eq_of_getLsbD_eq
  intro i hi
  simp only [BitVec.getLsbD_append, BitVec.getLsbD_extractLsb']
  by_cases h : i < 16
  · simp [h]
  · simp [h, show i - 16 < 16 by omega, show 16 + (i - 16) = i by omega]

theorem halves64 (v : Bits64) : (v.extractLsb' 32 32 ++ v.extractLsb' 0 32 : BitVec 64) = v := by
  apply BitVec.eq_of_getLsbD_eq
  intro i hi
  simp only [BitVec.getLsbD_append, BitVec.getLsbD_extractLsb']
  by_cases h : i < 32
  · simp [h]
  · simp [h, show i - 32 < 32 by omega, show 32 + (i - 32) = i by omega]

theorem extract_low {m n : Nat} (a : BitVec n) (b : BitVec m) : (b ++ a).extractLsb' 0 n = a := by
  apply BitVec.eq_of_getLsbD_eq
  intro i hi
  simp only [BitVec.getLsbD_extractLsb', BitVec.getLsbD_append]
  simp [hi]

theorem extract_high {m n : Nat} (a : BitVec n) (b : BitVec m) : (b ++ a).extractLsb' n m = b := by
  apply BitVec.eq_of_getLsbD_eq
  intro i hi
  simp only [BitVec.getLsbD_extractLsb', BitVec.getLsbD_append]
  simp [hi]

theorem bytes16_join (a b : Byte) : bytes16 (b ++ a) = [a, b] :=
  congrArg₂ (fun x y => [x, y]) (extract_low a b) (extract_high a b)

theorem bytes32_join (a b : Bits16) : bytes32 (b ++ a) = bytes16 a ++ bytes16 b :=
  congrArg₂ (fun x y => bytes16 x ++ bytes16 y) (extract_low a b) (extract_high a b)

theorem bytes64_join (a b : Bits32) : bytes64 (b ++ a) = bytes32 a ++ bytes32 b :=
  congrArg₂ (fun x y => bytes32 x ++ bytes32 y) (extract_low a b) (extract_high a b)

/-! ### Reads inside a list that goes on, or that begins with other bytes -/

@[simp] theorem u8_append_left (p q : List Byte) (o : Nat) (h : o < p.length) : u8 (p ++ q) o = u8 p o := by
  simp [u8, List.getD_eq_getElem?_getD, List.getElem?_append_left h]

theorem u8_append_right (p q : List Byte) (o : Nat) (h : p.length ≤ o) : u8 (p ++ q) o = u8 q (o - p.length) := by
  simp [u8, List.getD_eq_getElem?_getD, List.getElem?_append_right h]

theorem u16le_append_left (p q : List Byte) (o : Nat) (h : o + 2 ≤ p.length) : u16le (p ++ q) o = u16le p o := by
  simp [u16le, u8_append_left, show o < p.length by omega, show o + 1 < p.length by omega]

theorem u16le_append_right (p q : List Byte) (o : Nat) (h : p.length ≤ o) :
    u16le (p ++ q) o = u16le q (o - p.length) := by
  simp [u16le, u8_append_right p q o h, u8_append_right p q (o + 1) (by omega),
    show o + 1 - p.length = o - p.length + 1 by omega]

theorem u32le_append_left (p q : List Byte) (o : Nat) (h : o + 4 ≤ p.length) : u32le (p ++ q) o = u32le p o := by
  simp [u32le, u16le_append_left p q o (by omega), u16le_append_left p q (o + 2) (by omega)]

theorem u32le_append_right (p q : List Byte) (o : Nat) (h : p.length ≤ o) :
    u32le (p ++ q) o = u32le q (o - p.length) := by
  simp [u32le, u16le_append_right p q o h, u16le_append_right p q (o + 2) (by omega),
    show o + 2 - p.length = o - p.length + 2 by omega]

theorem u64le_append_left (p q : List Byte) (o : Nat) (h : o + 8 ≤ p.length) : u64le (p ++ q) o = u64le p o := by
  simp [u64le, u32le_append_left p q o (by omega), u32le_append_left p q (o + 4) (by omega)]

theorem u64le_append_right (p q : List Byte) (o : Nat) (h : p.length ≤ o) :
    u64le (p ++ q) o = u64le q (o - p.length) := by
  simp [u64le, u32le_append_right p q o h, u32le_append_right p q (o + 4) (by omega),
    show o + 4 - p.length = o - p.length + 4 by omega]

theorem u16le_bytes16 (v : Bits16) : u16le (bytes16 v) 0 = v := halves16 v

theorem u32le_bytes32 (v : Bits32) : u32le (bytes32 v) 0 = v := by
  have h1 : u16le (bytes32 v) 0 = v.extractLsb' 0 16 := halves16 _
  have h2 : u16le (bytes32 v) 2 = v.extractLsb' 16 16 := halves16 _
  rw [u32le, h1, h2, halves32]

theorem u64le_bytes64 (v : Bits64) : u64le (bytes64 v) 0 = v := by
  have h1 : u32le (bytes64 v) 0 = v.extractLsb' 0 32 := u32le_bytes32 _
  have h2 : u32le (bytes64 v) 4 = v.extractLsb' 32 32 := u32le_bytes32 _
  rw [u64le, h1, h2, halves64]

/-! ### The numbers the reads stand for (00_scope.md R10) -/

theorem u16le_toNat (p : List Byte) (o : Nat) :
    (u16le p o).toNat = (u8 p o).toNat + 256 * (u8 p (o + 1)).toNat := by
  have h : (u8 p o).toNat < 2 ^ 8 := (u8 p o).isLt
  rw [u16le, BitVec.toNat_append, ← Nat.shiftLeft_add_eq_or_of_lt h, Nat.shiftLeft_eq]
  omega

theorem u32le_toNat (p : List Byte) (o : Nat) :
    (u32le p o).toNat = (u16le p o).toNat + 65536 * (u16le p (o + 2)).toNat := by
  have h : (u16le p o).toNat < 2 ^ 16 := (u16le p o).isLt
  rw [u32le, BitVec.toNat_append, ← Nat.shiftLeft_add_eq_or_of_lt h, Nat.shiftLeft_eq]
  omega

theorem u64le_toNat (p : List Byte) (o : Nat) :
    (u64le p o).toNat = (u32le p o).toNat + 4294967296 * (u32le p (o + 4)).toNat := by
  have h : (u32le p o).toNat < 2 ^ 32 := (u32le p o).isLt
  rw [u64le, BitVec.toNat_append, ← Nat.shiftLeft_add_eq_or_of_lt h, Nat.shiftLeft_eq]
  omega

/-! ### Heads of payloads behind a part already scanned -/

theorem descHead_at (pre : List Byte) (d : DescHead) (rest : List Byte) :
    descHead (pre ++ (encodeDescHead d ++ rest)) pre.length = some d := by
  have key : ∀ k, k + 2 ≤ 8 → u16le (pre ++ (encodeDescHead d ++ rest)) (pre.length + k)
      = u16le (encodeDescHead d) k := by
    intro k hk
    rw [u16le_append_right _ _ _ (by omega), show pre.length + k - pre.length = k by omega,
      u16le_append_left _ _ _ (by simpa using hk)]
  have h0 := key 0 (by omega)
  rw [Nat.add_zero] at h0
  rw [descHead, if_neg (by simp), h0, key 2 (by omega), key 4 (by omega), key 6 (by omega)]
  congr 1
  cases d
  simp only [encodeDescHead]
  congr 1 <;> exact halves16 _

end Sys2Proof
end

