-- ==== Sys2Proof/Laws/State.lean ====
section
/-!
SUPPORT. The small lemmas of the state updates: one per update and field, true by unfolding, so that no proof unfolds a
record update.
-/

namespace Sys2Proof.Machine

/-! ### raise -/

@[simp] theorem State.raise_phase (s : State) (code : FaultCode) (step : DecodeStep) (sid : Option Bits16) : (s.raise code step sid).phase = .faulted := rfl
@[simp] theorem State.raise_hdrBuf (s : State) (code : FaultCode) (step : DecodeStep) (sid : Option Bits16) : (s.raise code step sid).hdrBuf = [] := rfl
@[simp] theorem State.raise_hdr (s : State) (code : FaultCode) (step : DecodeStep) (sid : Option Bits16) : (s.raise code step sid).hdr = s.hdr := rfl
@[simp] theorem State.raise_pay (s : State) (code : FaultCode) (step : DecodeStep) (sid : Option Bits16) : (s.raise code step sid).pay = [] := rfl
@[simp] theorem State.raise_streamPos (s : State) (code : FaultCode) (step : DecodeStep) (sid : Option Bits16) : (s.raise code step sid).streamPos = s.streamPos := rfl
@[simp] theorem State.raise_chan (s : State) (code : FaultCode) (step : DecodeStep) (sid : Option Bits16) : (s.raise code step sid).chan = s.chan := rfl
@[simp] theorem State.raise_fault (s : State) (code : FaultCode) (step : DecodeStep) (sid : Option Bits16) : (s.raise code step sid).fault = some { code := code, step := step, sid := sid, pos := s.streamPos } := rfl
@[simp] theorem State.raise_cfg (s : State) (code : FaultCode) (step : DecodeStep) (sid : Option Bits16) : (s.raise code step sid).cfg = s.cfg := rfl
@[simp] theorem State.raise_stream (s : State) (code : FaultCode) (step : DecodeStep) (sid : Option Bits16) : (s.raise code step sid).stream = s.stream := rfl
@[simp] theorem State.raise_ctl (s : State) (code : FaultCode) (step : DecodeStep) (sid : Option Bits16) : (s.raise code step sid).ctl = s.ctl := rfl
@[simp] theorem State.raise_work (s : State) (code : FaultCode) (step : DecodeStep) (sid : Option Bits16) : (s.raise code step sid).work = Work.idle := rfl

/-! ### initial -/

@[simp] theorem State.initial_phase (c : Cfg) (es : List StreamEvent) (l : List (Option (List Nat))) : (State.initial c es l).phase = .awaitingHeader := rfl
@[simp] theorem State.initial_hdrBuf (c : Cfg) (es : List StreamEvent) (l : List (Option (List Nat))) : (State.initial c es l).hdrBuf = [] := rfl
@[simp] theorem State.initial_hdr (c : Cfg) (es : List StreamEvent) (l : List (Option (List Nat))) : (State.initial c es l).hdr = resetHeader := rfl
@[simp] theorem State.initial_pay (c : Cfg) (es : List StreamEvent) (l : List (Option (List Nat))) : (State.initial c es l).pay = [] := rfl
@[simp] theorem State.initial_streamPos (c : Cfg) (es : List StreamEvent) (l : List (Option (List Nat))) : (State.initial c es l).streamPos = 0 := rfl
@[simp] theorem State.initial_chan (c : Cfg) (es : List StreamEvent) (l : List (Option (List Nat))) : (State.initial c es l).chan = List.replicate c.nChannels Channel.reset := rfl
@[simp] theorem State.initial_fault (c : Cfg) (es : List StreamEvent) (l : List (Option (List Nat))) : (State.initial c es l).fault = none := rfl
@[simp] theorem State.initial_cfg (c : Cfg) (es : List StreamEvent) (l : List (Option (List Nat))) : (State.initial c es l).cfg = c := rfl
@[simp] theorem State.initial_stream (c : Cfg) (es : List StreamEvent) (l : List (Option (List Nat))) : (State.initial c es l).stream = es := rfl
@[simp] theorem State.initial_ctl (c : Cfg) (es : List StreamEvent) (l : List (Option (List Nat))) : (State.initial c es l).ctl = l := rfl
@[simp] theorem State.initial_work (c : Cfg) (es : List StreamEvent) (l : List (Option (List Nat))) : (State.initial c es l).work = Work.idle := rfl

/-! ### advance -/

@[simp] theorem State.advance_phase (s : State) : (s.advance).phase = s.phase := rfl
@[simp] theorem State.advance_hdrBuf (s : State) : (s.advance).hdrBuf = s.hdrBuf := rfl
@[simp] theorem State.advance_hdr (s : State) : (s.advance).hdr = s.hdr := rfl
@[simp] theorem State.advance_pay (s : State) : (s.advance).pay = s.pay := rfl
@[simp] theorem State.advance_streamPos (s : State) : (s.advance).streamPos = s.streamPos + 1 := rfl
@[simp] theorem State.advance_chan (s : State) : (s.advance).chan = s.chan := rfl
@[simp] theorem State.advance_fault (s : State) : (s.advance).fault = s.fault := rfl
@[simp] theorem State.advance_cfg (s : State) : (s.advance).cfg = s.cfg := rfl
@[simp] theorem State.advance_stream (s : State) : (s.advance).stream = s.stream := rfl
@[simp] theorem State.advance_ctl (s : State) : (s.advance).ctl = s.ctl := rfl
@[simp] theorem State.advance_work (s : State) : (s.advance).work = s.work := rfl

/-! ### setChannel -/

@[simp] theorem State.setChannel_phase (s : State) (c : Nat) (ch : Channel) : (s.setChannel c ch).phase = s.phase := rfl
@[simp] theorem State.setChannel_hdrBuf (s : State) (c : Nat) (ch : Channel) : (s.setChannel c ch).hdrBuf = s.hdrBuf := rfl
@[simp] theorem State.setChannel_hdr (s : State) (c : Nat) (ch : Channel) : (s.setChannel c ch).hdr = s.hdr := rfl
@[simp] theorem State.setChannel_pay (s : State) (c : Nat) (ch : Channel) : (s.setChannel c ch).pay = s.pay := rfl
@[simp] theorem State.setChannel_streamPos (s : State) (c : Nat) (ch : Channel) : (s.setChannel c ch).streamPos = s.streamPos := rfl
@[simp] theorem State.setChannel_chan (s : State) (c : Nat) (ch : Channel) : (s.setChannel c ch).chan = s.chan.set (c - 1) ch := rfl
@[simp] theorem State.setChannel_fault (s : State) (c : Nat) (ch : Channel) : (s.setChannel c ch).fault = s.fault := rfl
@[simp] theorem State.setChannel_cfg (s : State) (c : Nat) (ch : Channel) : (s.setChannel c ch).cfg = s.cfg := rfl
@[simp] theorem State.setChannel_stream (s : State) (c : Nat) (ch : Channel) : (s.setChannel c ch).stream = s.stream := rfl
@[simp] theorem State.setChannel_ctl (s : State) (c : Nat) (ch : Channel) : (s.setChannel c ch).ctl = s.ctl := rfl
@[simp] theorem State.setChannel_work (s : State) (c : Nat) (ch : Channel) : (s.setChannel c ch).work = s.work := rfl

/-! ### withWork -/

@[simp] theorem State.withWork_phase (s : State) (w : Work) : (s.withWork w).phase = s.phase := rfl
@[simp] theorem State.withWork_hdrBuf (s : State) (w : Work) : (s.withWork w).hdrBuf = s.hdrBuf := rfl
@[simp] theorem State.withWork_hdr (s : State) (w : Work) : (s.withWork w).hdr = s.hdr := rfl
@[simp] theorem State.withWork_pay (s : State) (w : Work) : (s.withWork w).pay = s.pay := rfl
@[simp] theorem State.withWork_streamPos (s : State) (w : Work) : (s.withWork w).streamPos = s.streamPos := rfl
@[simp] theorem State.withWork_chan (s : State) (w : Work) : (s.withWork w).chan = s.chan := rfl
@[simp] theorem State.withWork_fault (s : State) (w : Work) : (s.withWork w).fault = s.fault := rfl
@[simp] theorem State.withWork_cfg (s : State) (w : Work) : (s.withWork w).cfg = s.cfg := rfl
@[simp] theorem State.withWork_stream (s : State) (w : Work) : (s.withWork w).stream = s.stream := rfl
@[simp] theorem State.withWork_ctl (s : State) (w : Work) : (s.withWork w).ctl = s.ctl := rfl
@[simp] theorem State.withWork_work (s : State) (w : Work) : (s.withWork w).work = w := rfl

/-! ### collect -/

@[simp] theorem State.collect_phase (s : State) (v : Bits32) : (s.collect v).phase = s.phase := rfl
@[simp] theorem State.collect_hdrBuf (s : State) (v : Bits32) : (s.collect v).hdrBuf = s.hdrBuf := rfl
@[simp] theorem State.collect_hdr (s : State) (v : Bits32) : (s.collect v).hdr = s.hdr := rfl
@[simp] theorem State.collect_pay (s : State) (v : Bits32) : (s.collect v).pay = s.pay := rfl
@[simp] theorem State.collect_streamPos (s : State) (v : Bits32) : (s.collect v).streamPos = s.streamPos := rfl
@[simp] theorem State.collect_chan (s : State) (v : Bits32) : (s.collect v).chan = s.chan := rfl
@[simp] theorem State.collect_fault (s : State) (v : Bits32) : (s.collect v).fault = s.fault := rfl
@[simp] theorem State.collect_cfg (s : State) (v : Bits32) : (s.collect v).cfg = s.cfg := rfl
@[simp] theorem State.collect_stream (s : State) (v : Bits32) : (s.collect v).stream = s.stream := rfl
@[simp] theorem State.collect_ctl (s : State) (v : Bits32) : (s.collect v).ctl = s.ctl := rfl
@[simp] theorem State.collect_work (s : State) (v : Bits32) : (s.collect v).work = { scan := s.work.scan, vs := s.work.vs ++ [v] } := rfl

/-! ### beginScan -/

@[simp] theorem State.beginScan_phase (s : State) : (s.beginScan).phase = s.phase := rfl
@[simp] theorem State.beginScan_hdrBuf (s : State) : (s.beginScan).hdrBuf = s.hdrBuf := rfl
@[simp] theorem State.beginScan_hdr (s : State) : (s.beginScan).hdr = s.hdr := rfl
@[simp] theorem State.beginScan_pay (s : State) : (s.beginScan).pay = s.pay := rfl
@[simp] theorem State.beginScan_streamPos (s : State) : (s.beginScan).streamPos = s.streamPos := rfl
@[simp] theorem State.beginScan_chan (s : State) : (s.beginScan).chan = s.chan := rfl
@[simp] theorem State.beginScan_fault (s : State) : (s.beginScan).fault = s.fault := rfl
@[simp] theorem State.beginScan_cfg (s : State) : (s.beginScan).cfg = s.cfg := rfl
@[simp] theorem State.beginScan_stream (s : State) : (s.beginScan).stream = s.stream := rfl
@[simp] theorem State.beginScan_ctl (s : State) : (s.beginScan).ctl = s.ctl := rfl
@[simp] theorem State.beginScan_work (s : State) : (s.beginScan).work = { scan := some 0, vs := s.work.vs } := rfl

/-! ### scanTo -/

@[simp] theorem State.scanTo_phase (s : State) (off : Nat) : (s.scanTo off).phase = s.phase := rfl
@[simp] theorem State.scanTo_hdrBuf (s : State) (off : Nat) : (s.scanTo off).hdrBuf = s.hdrBuf := rfl
@[simp] theorem State.scanTo_hdr (s : State) (off : Nat) : (s.scanTo off).hdr = s.hdr := rfl
@[simp] theorem State.scanTo_pay (s : State) (off : Nat) : (s.scanTo off).pay = s.pay := rfl
@[simp] theorem State.scanTo_streamPos (s : State) (off : Nat) : (s.scanTo off).streamPos = s.streamPos := rfl
@[simp] theorem State.scanTo_chan (s : State) (off : Nat) : (s.scanTo off).chan = s.chan := rfl
@[simp] theorem State.scanTo_fault (s : State) (off : Nat) : (s.scanTo off).fault = s.fault := rfl
@[simp] theorem State.scanTo_cfg (s : State) (off : Nat) : (s.scanTo off).cfg = s.cfg := rfl
@[simp] theorem State.scanTo_stream (s : State) (off : Nat) : (s.scanTo off).stream = s.stream := rfl
@[simp] theorem State.scanTo_ctl (s : State) (off : Nat) : (s.scanTo off).ctl = s.ctl := rfl
@[simp] theorem State.scanTo_work (s : State) (off : Nat) : (s.scanTo off).work = { scan := some off, vs := s.work.vs } := rfl

/-! ### endScan -/

@[simp] theorem State.endScan_phase (s : State) : (s.endScan).phase = s.phase := rfl
@[simp] theorem State.endScan_hdrBuf (s : State) : (s.endScan).hdrBuf = s.hdrBuf := rfl
@[simp] theorem State.endScan_hdr (s : State) : (s.endScan).hdr = s.hdr := rfl
@[simp] theorem State.endScan_pay (s : State) : (s.endScan).pay = s.pay := rfl
@[simp] theorem State.endScan_streamPos (s : State) : (s.endScan).streamPos = s.streamPos := rfl
@[simp] theorem State.endScan_chan (s : State) : (s.endScan).chan = s.chan := rfl
@[simp] theorem State.endScan_fault (s : State) : (s.endScan).fault = s.fault := rfl
@[simp] theorem State.endScan_cfg (s : State) : (s.endScan).cfg = s.cfg := rfl
@[simp] theorem State.endScan_stream (s : State) : (s.endScan).stream = s.stream := rfl
@[simp] theorem State.endScan_ctl (s : State) : (s.endScan).ctl = s.ctl := rfl
@[simp] theorem State.endScan_work (s : State) : (s.endScan).work = { scan := none, vs := s.work.vs } := rfl

/-! ### appendCollected -/

@[simp] theorem State.appendCollected_phase (s : State) (c : Nat) (ch : Channel) : (s.appendCollected c ch).phase = s.phase := rfl
@[simp] theorem State.appendCollected_hdrBuf (s : State) (c : Nat) (ch : Channel) : (s.appendCollected c ch).hdrBuf = s.hdrBuf := rfl
@[simp] theorem State.appendCollected_hdr (s : State) (c : Nat) (ch : Channel) : (s.appendCollected c ch).hdr = s.hdr := rfl
@[simp] theorem State.appendCollected_pay (s : State) (c : Nat) (ch : Channel) : (s.appendCollected c ch).pay = s.pay := rfl
@[simp] theorem State.appendCollected_streamPos (s : State) (c : Nat) (ch : Channel) : (s.appendCollected c ch).streamPos = s.streamPos := rfl
@[simp] theorem State.appendCollected_chan (s : State) (c : Nat) (ch : Channel) : (s.appendCollected c ch).chan = s.chan.set (c - 1) { ch with samples := ch.samples ++ s.work.vs } := rfl
@[simp] theorem State.appendCollected_fault (s : State) (c : Nat) (ch : Channel) : (s.appendCollected c ch).fault = s.fault := rfl
@[simp] theorem State.appendCollected_cfg (s : State) (c : Nat) (ch : Channel) : (s.appendCollected c ch).cfg = s.cfg := rfl
@[simp] theorem State.appendCollected_stream (s : State) (c : Nat) (ch : Channel) : (s.appendCollected c ch).stream = s.stream := rfl
@[simp] theorem State.appendCollected_ctl (s : State) (c : Nat) (ch : Channel) : (s.appendCollected c ch).ctl = s.ctl := rfl
@[simp] theorem State.appendCollected_work (s : State) (c : Nat) (ch : Channel) : (s.appendCollected c ch).work = Work.idle := rfl

/-! ### pinRead -/

@[simp] theorem State.pinRead_phase (s : State) : (s.pinRead).phase = s.phase := rfl
@[simp] theorem State.pinRead_hdrBuf (s : State) : (s.pinRead).hdrBuf = s.hdrBuf := rfl
@[simp] theorem State.pinRead_hdr (s : State) : (s.pinRead).hdr = s.hdr := rfl
@[simp] theorem State.pinRead_pay (s : State) : (s.pinRead).pay = s.pay := rfl
@[simp] theorem State.pinRead_streamPos (s : State) : (s.pinRead).streamPos = s.streamPos := rfl
@[simp] theorem State.pinRead_chan (s : State) : (s.pinRead).chan = s.chan := rfl
@[simp] theorem State.pinRead_fault (s : State) : (s.pinRead).fault = s.fault := rfl
@[simp] theorem State.pinRead_cfg (s : State) : (s.pinRead).cfg = s.cfg := rfl
@[simp] theorem State.pinRead_stream (s : State) : (s.pinRead).stream = s.stream := rfl
@[simp] theorem State.pinRead_ctl (s : State) : (s.pinRead).ctl = s.ctl.tail := rfl
@[simp] theorem State.pinRead_work (s : State) : (s.pinRead).work = s.work := rfl

@[simp] theorem State.settle_hdrBuf (s : State) : s.settle.hdrBuf = s.hdrBuf := by
  unfold State.settle; split <;> [rfl; split <;> rfl]
@[simp] theorem State.checkTermination_hdrBuf (s : State) : s.checkTermination.hdrBuf = s.hdrBuf := by
  unfold State.checkTermination; split <;> rfl

@[simp] theorem State.settle_hdr (s : State) : s.settle.hdr = s.hdr := by
  unfold State.settle; split <;> [rfl; split <;> rfl]
@[simp] theorem State.checkTermination_hdr (s : State) : s.checkTermination.hdr = s.hdr := by
  unfold State.checkTermination; split <;> rfl

@[simp] theorem State.settle_pay (s : State) : s.settle.pay = s.pay := by
  unfold State.settle; split <;> [rfl; split <;> rfl]
@[simp] theorem State.checkTermination_pay (s : State) : s.checkTermination.pay = s.pay := by
  unfold State.checkTermination; split <;> rfl

@[simp] theorem State.settle_streamPos (s : State) : s.settle.streamPos = s.streamPos := by
  unfold State.settle; split <;> [rfl; split <;> rfl]
@[simp] theorem State.checkTermination_streamPos (s : State) : s.checkTermination.streamPos = s.streamPos := by
  unfold State.checkTermination; split <;> rfl

@[simp] theorem State.settle_chan (s : State) : s.settle.chan = s.chan := by
  unfold State.settle; split <;> [rfl; split <;> rfl]
@[simp] theorem State.checkTermination_chan (s : State) : s.checkTermination.chan = s.chan := by
  unfold State.checkTermination; split <;> rfl

@[simp] theorem State.settle_fault (s : State) : s.settle.fault = s.fault := by
  unfold State.settle; split <;> [rfl; split <;> rfl]
@[simp] theorem State.checkTermination_fault (s : State) : s.checkTermination.fault = s.fault := by
  unfold State.checkTermination; split <;> rfl

@[simp] theorem State.settle_cfg (s : State) : s.settle.cfg = s.cfg := by
  unfold State.settle; split <;> [rfl; split <;> rfl]
@[simp] theorem State.checkTermination_cfg (s : State) : s.checkTermination.cfg = s.cfg := by
  unfold State.checkTermination; split <;> rfl

@[simp] theorem State.settle_stream (s : State) : s.settle.stream = s.stream := by
  unfold State.settle; split <;> [rfl; split <;> rfl]
@[simp] theorem State.checkTermination_stream (s : State) : s.checkTermination.stream = s.stream := by
  unfold State.checkTermination; split <;> rfl

@[simp] theorem State.settle_ctl (s : State) : s.settle.ctl = s.ctl := by
  unfold State.settle; split <;> [rfl; split <;> rfl]
@[simp] theorem State.checkTermination_ctl (s : State) : s.checkTermination.ctl = s.ctl := by
  unfold State.checkTermination; split <;> rfl

@[simp] theorem State.settle_work (s : State) : s.settle.work = s.work := by
  unfold State.settle; split <;> [rfl; split <;> rfl]
@[simp] theorem State.checkTermination_work (s : State) : s.checkTermination.work = s.work := by
  unfold State.checkTermination; split <;> rfl

end Sys2Proof.Machine
end

