-- ==== Sys2Proof/Laws/Ops.lean ====
section
/-!
SUPPORT. One lemma per shared operation, saying once what it can do: outcomes joined, channels read and written, the
termination predicate, samples collected, the end of a commit, a fault taken, and each decoder's outcomes.
-/

namespace Sys2Proof.Machine

/-! ### Outcomes -/

@[simp] theorem andThen_next (s : State) (f : State → Result) : andThen (.next s) f = f s := rfl
@[simp] theorem andThen_fault (e : Fault) (f : State → Result) : andThen (.fault e) f = .fault e := rfl
@[simp] theorem andThen_refused (e : Refusal) (f : State → Result) : andThen (.refused e) f = .refused e := rfl

theorem andThen_eq_next {r : Result} {f : State → Result} {t : State} (h : andThen r f = .next t) :
    ∃ u, r = .next u ∧ f u = .next t := by
  cases r with
  | next u => exact ⟨u, rfl, h⟩
  | fault e => cases h
  | refused e => cases h

/-! ### Channels -/

theorem channel_some_iff (s : State) (c : Nat) (ch : Channel) :
    s.channel c = some ch ↔ 1 ≤ c ∧ s.chan[c - 1]? = some ch := by
  unfold State.channel
  split
  · simp; omega
  · simp; omega

theorem channel_exists {s : State} {c : Nat} (h1 : 1 ≤ c) (h2 : c ≤ s.chan.length) : ∃ ch, s.channel c = some ch := by
  refine ⟨s.chan[c - 1]'(by omega), ?_⟩
  rw [channel_some_iff]
  exact ⟨h1, List.getElem?_eq_getElem (by omega)⟩

theorem channel_congr {s t : State} (h : t.chan = s.chan) (c : Nat) : t.channel c = s.channel c := by
  unfold State.channel; rw [h]

theorem samples_congr {s t : State} (h : t.chan = s.chan) (c : Nat) : t.samples c = s.samples c := by
  unfold State.samples; rw [channel_congr h]

theorem count_congr {s t : State} (h : t.chan = s.chan) (c : Nat) : t.count c = s.count c := by
  unfold State.count; rw [samples_congr h]

theorem channel_set_same {s t : State} {c : Nat} {old ch : Channel} (ho : s.channel c = some old)
    (h : t.chan = s.chan.set (c - 1) ch) : t.channel c = some ch := by
  rw [channel_some_iff] at ho ⊢
  refine ⟨ho.1, ?_⟩
  have hl := List.getElem?_eq_some_iff.1 ho.2
  rw [h, List.getElem?_set_self hl.1]

theorem channel_set_other {s t : State} {c d : Nat} {ch : Channel} (hc : 1 ≤ c)
    (h : t.chan = s.chan.set (c - 1) ch) (hd : d ≠ c) : t.channel d = s.channel d := by
  unfold State.channel
  by_cases h0 : d = 0
  · simp [h0]
  · rw [if_neg h0, if_neg h0, h, List.getElem?_set_ne (by omega)]

/-- The access operation runs its continuation on a channel that is there. -/
theorem updateChannel_some {s : State} {c : Nat} {ch : Channel} (h : s.channel c = some ch)
    (f : Channel → State → Result) : s.updateChannel c f = f ch s := by
  unfold State.updateChannel; rw [h]

theorem updateChannel_none {s : State} {c : Nat} (h : s.channel c = none)
    (f : Channel → State → Result) : s.updateChannel c f = .fault (.noSuchChannel c) := by
  unfold State.updateChannel; rw [h]

theorem namesChannel_iff (cfg : Cfg) (sid : Bits16) :
    cfg.namesChannel sid = true ↔ 1 ≤ sid.toNat ∧ sid.toNat ≤ cfg.nChannels := by
  simp [Cfg.namesChannel]

theorem namesChannel_false_iff (cfg : Cfg) (sid : Bits16) :
    cfg.namesChannel sid = false ↔ ¬(1 ≤ sid.toNat ∧ sid.toNat ≤ cfg.nChannels) := by
  rw [← namesChannel_iff]; simp

/-! ### Termination and the end of a commit -/

theorem terminated_iff (s : State) :
    s.terminated = true ↔ ∀ c, 1 ≤ c → c ≤ s.cfg.nChannels → s.cfg.target c ≤ s.count c := by
  simp only [State.terminated, List.all_eq_true, List.mem_range, decide_eq_true_eq]
  constructor
  · intro h c h1 h2
    have := h (c - 1) (by omega)
    rwa [show c - 1 + 1 = c by omega] at this
  · intro h k hk
    exact h (k + 1) (by omega) (by omega)

theorem terminated_congr {s t : State} (hc : t.chan = s.chan) (hg : t.cfg = s.cfg) : t.terminated = s.terminated := by
  unfold State.terminated
  simp only [hg, count_congr hc]

/-- What the end of a commit does to the phase. -/
theorem settle_phase (s : State) :
    s.settle.phase =
      if s.phase = .faulted then .faulted else if s.terminated then .done else .awaitingHeader := by
  unfold State.settle
  split
  · assumption
  · split <;> rfl

theorem settle_terminated (s : State) : s.settle.terminated = s.terminated :=
  terminated_congr (State.settle_chan s) (State.settle_cfg s)

/-- Two states that agree in every field are equal. -/
theorem State.ext_fields {s t : State} (h1 : s.phase = t.phase) (h2 : s.hdrBuf = t.hdrBuf) (h3 : s.hdr = t.hdr)
    (h4 : s.pay = t.pay) (h5 : s.streamPos = t.streamPos) (h6 : s.chan = t.chan) (h7 : s.fault = t.fault)
    (h8 : s.cfg = t.cfg) (h9 : s.stream = t.stream) (h10 : s.ctl = t.ctl) (h11 : s.work = t.work) : s = t := by
  cases s; cases t; simp_all

/-! ### Taking a fault -/

theorem raise_faultsWith (s : State) (code : FaultCode) (step : DecodeStep) (sid : Option Bits16) :
    FaultsWith s code step sid (.next (s.raise code step sid)) :=
  ⟨_, rfl, rfl, rfl, rfl, rfl, rfl, rfl, rfl, rfl⟩

/-! ### Samples -/

/-- Collecting n groups adds exactly their samples, in order, and nothing else. -/
theorem collectSamples_eq (pay : List Byte) (n : Nat) (s : State) :
    collectSamples pay n s =
      s.withWork { scan := s.work.scan, vs := s.work.vs ++ (List.range n).map (sampleAt pay) } := by
  unfold collectSamples
  induction n with
  | zero => simp [State.withWork]
  | succ n ih =>
    rw [List.range_succ, List.foldl_append, ih, List.map_append]
    simp only [List.foldl_cons, List.foldl_nil, List.map_cons, List.map_nil]
    simp [State.collect, State.withWork]

/-- SIGNAL_DATA on a payload its checks accept. -/
theorem execSignalData_accepts {h : FrameHeader} {pay : List Byte} {s : State} {ch : Channel}
    (h8 : 8 ≤ pay.length) (hn : 8 + 3 * (signalHead pay).numberOfValues.toNat ≤ pay.length)
    (hc : s.cfg.namesChannel (signalHead pay).signalId = true)
    (hch : s.channel (signalHead pay).signalId.toNat = some ch)
    (hcap : ch.samples.length + (signalHead pay).numberOfValues.toNat ≤ s.cfg.capacity) :
    execSignalData h pay s = .next { s with
      chan := s.chan.set ((signalHead pay).signalId.toNat - 1)
        { ch with samples := ch.samples ++
            (List.range (signalHead pay).numberOfValues.toNat).map (sampleAt pay) }
      work := Work.idle } := by
  unfold execSignalData
  rw [if_neg (by omega)]
  simp only
  rw [if_neg (by omega), if_neg (by simp [hc]), updateChannel_some hch, if_neg (by omega), collectSamples_eq]
  simp [State.appendCollected, State.setChannel, State.withWork, Work.idle]

/-- Everything SIGNAL_DATA can do where the channel file is complete: a fault, or samples appended to one channel. -/
theorem execSignalData_cases (h : FrameHeader) (pay : List Byte) {s : State} (hl : s.chan.length = s.cfg.nChannels) :
    (∃ code sid, execSignalData h pay s = .next (s.raise code .signalDecode sid) ∧
      (⟨code, .signalDecode, sid, 0⟩ : FaultRecord).legal = true) ∨
    (∃ c ch vs, s.channel c = some ch ∧ (∀ v ∈ vs, ∃ i, v = sampleAt pay i) ∧
      ch.samples.length + vs.length ≤ s.cfg.capacity ∧
      execSignalData h pay s = .next { s with
        chan := s.chan.set (c - 1) { ch with samples := ch.samples ++ vs }, work := Work.idle }) := by
  by_cases h8 : pay.length < 8
  · left
    refine ⟨.payloadTooShort, none, ?_, rfl⟩
    unfold execSignalData
    rw [if_pos h8]
  by_cases hn : pay.length < 8 + 3 * (signalHead pay).numberOfValues.toNat
  · left
    refine ⟨.payloadTooShort, some (signalHead pay).signalId, ?_, rfl⟩
    unfold execSignalData
    rw [if_neg h8]; simp only; rw [if_pos hn]
  by_cases hc : s.cfg.namesChannel (signalHead pay).signalId = false
  · left
    refine ⟨.channelOutOfRange, some (signalHead pay).signalId, ?_, rfl⟩
    unfold execSignalData
    rw [if_neg h8]; simp only; rw [if_neg hn, if_pos hc]
  have hc' := (namesChannel_iff _ _).1 (by simpa using hc)
  obtain ⟨ch, hch⟩ := channel_exists hc'.1 (by rw [hl]; exact hc'.2)
  by_cases hcap : s.cfg.capacity < ch.samples.length + (signalHead pay).numberOfValues.toNat
  · left
    refine ⟨.sampleBufferOverflow, some (signalHead pay).signalId, ?_, rfl⟩
    unfold execSignalData
    rw [if_neg h8]; simp only; rw [if_neg hn, if_neg hc, updateChannel_some hch, if_pos hcap]
  · right
    refine ⟨_, ch, (List.range (signalHead pay).numberOfValues.toNat).map (sampleAt pay), hch, ?_, ?_, ?_⟩
    · intro v hv
      obtain ⟨i, -, rfl⟩ := List.mem_map.1 hv
      exact ⟨i, rfl⟩
    · simp; omega
    · exact execSignalData_accepts (by omega) (by omega) (by simpa using hc) hch (by omega)

/-! ### Calibration -/

/-- SCALE_FACTOR on a value and a channel its checks accept. -/
theorem execScaleFactor_accepts (sid r vl : Bits16) {value : List Byte} {s : State} {ch : Channel}
    (hv : 8 ≤ value.length) (hc : s.cfg.namesChannel sid = true) (hch : s.channel sid.toNat = some ch) :
    execScaleFactor sid r vl value s = .next { s with
      chan := s.chan.set (sid.toNat - 1) { ch with scale := b64le value 0 }
      work := { scan := none, vs := s.work.vs } } := by
  unfold execScaleFactor
  rw [if_neg (by omega), if_neg (by simp [hc]), updateChannel_some hch]
  rfl

/-- Everything SCALE_FACTOR can do where the channel file is complete. -/
theorem execScaleFactor_cases (sid r vl : Bits16) (value : List Byte) {s : State}
    (hl : s.chan.length = s.cfg.nChannels) :
    (∃ code, execScaleFactor sid r vl value s = .next (s.raise code .calibrationDecode (some sid)) ∧
      (⟨code, .calibrationDecode, some sid, 0⟩ : FaultRecord).legal = true) ∨
    (∃ ch, s.channel sid.toNat = some ch ∧
      execScaleFactor sid r vl value s = .next { s with
        chan := s.chan.set (sid.toNat - 1) { ch with scale := b64le value 0 }
        work := { scan := none, vs := s.work.vs } }) := by
  by_cases hv : value.length < 8
  · exact .inl ⟨.descriptorTruncated, by unfold execScaleFactor; rw [if_pos hv], rfl⟩
  by_cases hc : s.cfg.namesChannel sid = false
  · exact .inl ⟨.channelOutOfRange, by unfold execScaleFactor; rw [if_neg hv, if_pos hc], rfl⟩
  have hc' := (namesChannel_iff _ _).1 (by simpa using hc)
  obtain ⟨ch, hch⟩ := channel_exists hc'.1 (by rw [hl]; exact hc'.2)
  exact .inr ⟨ch, hch, execScaleFactor_accepts sid r vl (by omega) (by simpa using hc) hch⟩

/-- SKIP_DESCRIPTOR inside a scan. -/
theorem execSkipDescriptor_scanning (sid dt r vl : Bits16) {s : State} {off : Nat} (h : s.work.scan = some off) :
    execSkipDescriptor sid dt r vl s = .next (s.scanTo (off + stride vl.toNat)) := by
  unfold execSkipDescriptor; rw [h]

/-- SKIP_DESCRIPTOR outside a scan. -/
theorem execSkipDescriptor_idle (sid dt r vl : Bits16) {s : State} (h : s.work.scan = none) :
    execSkipDescriptor sid dt r vl s = .next s := by
  unfold execSkipDescriptor; rw [h]

theorem stride_ge (n : Nat) : 12 ≤ stride n := by unfold stride align4; omega

/-- One pass of the scan that skips a descriptor. -/
theorem calibrationScan_skip {fuel off : Nat} {pay : List Byte} {s : State} {d : DescHead}
    (hs : s.work.scan = some off) (hlt : off < pay.length) (hd : descHead pay off = some d)
    (ht : d.descriptorType ≠ 0x0002#16) :
    calibrationScan (fuel + 1) pay s =
      calibrationScan fuel pay (s.scanTo (off + stride d.valueLength.toNat)) := by
  rw [calibrationScan, hs]
  simp only
  rw [if_neg (by omega), hd]
  simp only
  rw [if_neg ht, execSkipDescriptor_scanning _ _ _ _ hs]
  rfl

/-- One pass of the scan that meets a scale factor. -/
theorem calibrationScan_scale {fuel off : Nat} {pay : List Byte} {s : State} {d : DescHead}
    (hs : s.work.scan = some off) (hlt : off < pay.length) (hd : descHead pay off = some d)
    (ht : d.descriptorType = 0x0002#16) :
    calibrationScan (fuel + 1) pay s =
      execScaleFactor d.signalId d.reserved d.valueLength (descValue pay off) s := by
  rw [calibrationScan, hs]
  simp only
  rw [if_neg (by omega), hd]
  simp only
  rw [if_pos ht]

/-- One pass of the scan that finds the head of the next descriptor cut off. -/
theorem calibrationScan_cut {fuel off : Nat} {pay : List Byte} {s : State}
    (hs : s.work.scan = some off) (hlt : off < pay.length) (hd : descHead pay off = none) :
    calibrationScan (fuel + 1) pay s = .next (s.raise .descriptorTruncated .calibrationDecode none) := by
  rw [calibrationScan, hs]
  simp only
  rw [if_neg (by omega), hd]

/-- The pass that finds the next offset at or past the payload's end. -/
theorem calibrationScan_stop {fuel off : Nat} {pay : List Byte} {s : State}
    (hs : s.work.scan = some off) (hle : pay.length ≤ off) :
    calibrationScan (fuel + 1) pay s = .next s.endScan := by
  rw [calibrationScan, hs]
  simp only
  rw [if_pos hle]

/-- Moving the scan to where it stands changes nothing. -/
theorem scanTo_self {s : State} {off : Nat} (h : s.work.scan = some off) : s.scanTo off = s := by
  rw [State.scanTo, ← h]
  rfl

/-- Of two moves of the scan the later one counts. -/
theorem scanTo_scanTo (s : State) (a b : Nat) : (s.scanTo a).scanTo b = s.scanTo b := rfl

end Sys2Proof.Machine
end

