-- ==== Sys2Proof/Laws/Formats.lean ====
section
/-!
SUPPORT. Whole formats: the numbers of the cursor reads, headers read back from their bytes, and a calibration scan
that runs past whole skipped descriptors.
-/

namespace Sys2Proof.Machine

/-! ### The cursor reads as the numbers of `natLE` (00_scope.md R10) -/

theorem natLE_one (p : List Byte) (o : Nat) : natLE p o 1 = (u8 p o).toNat := by simp [natLE, u8]

theorem natLE_two (p : List Byte) (o : Nat) : natLE p o 2 = (u16le p o).toNat := by simp [natLE, u16le_toNat, u8]

theorem natLE_four (p : List Byte) (o : Nat) : natLE p o 4 = (u32le p o).toNat := by
  simp [natLE, u32le_toNat, u16le_toNat, u8, Nat.add_assoc]
  omega

theorem natLE_eight (p : List Byte) (o : Nat) : natLE p o 8 = (u64le p o).toNat := by
  simp [natLE, u64le_toNat, u32le_toNat, u16le_toNat, u8, Nat.add_assoc]
  omega

/-! ### Headers (30_encoding.md R70) -/

/-- A header's bytes, whatever follows them, decode to it. -/
theorem decodeHeader_encode (h : FrameHeader) (r : List Byte) : decodeHeader (encodeHeader h ++ r) = h := by
  unfold decodeHeader encodeHeader
  simp [u16le_append_left, u16le_append_right, u32le_append_left, u32le_append_right, u64le_append_left,
    u64le_append_right, u16le_bytes16, u32le_bytes32, u64le_bytes64]

/-- 28 bytes are the encoding of the header they decode to. -/
theorem encodeHeader_decode (p : List Byte) (hp : p.length = 28) : encodeHeader (decodeHeader p) = p := by
  unfold encodeHeader decodeHeader
  simp only [u64le, u32le, u16le, bytes64_join, bytes32_join, bytes16_join]
  apply List.ext_getElem
  · simp [hp]
  · intro i h1 h2
    have : i < 28 := by omega
    simp only [u8, List.getD_eq_getElem?_getD]
    interval_cases i <;> simp [h2]

/-- A header declares no payload exactly if its last four bytes are the number 0. -/
theorem dataLength_eq_zero (p : List Byte) : (decodeHeader p).dataLength = 0#32 ↔ natLE p 24 4 = 0 := by
  rw [natLE_four]
  show u32le p 24 = 0#32 ↔ _
  rw [BitVec.toNat_eq]
  simp

/-! ### The scan past whole skipped descriptors (42_calibration_decoder.md R121, R124) -/

theorem skipBytes_cons (x : SkipItem) (xs : List SkipItem) : skipBytes (x :: xs) = x.bytes ++ skipBytes xs := by
  simp [skipBytes]

theorem SkipItem.whole_length {x : SkipItem} (h : x.whole = true) :
    x.bytes.length = stride x.head.valueLength.toNat ∧ x.head.descriptorType ≠ 0x0002#16 := by
  simp [SkipItem.whole] at h
  refine ⟨?_, h.1⟩
  simp [SkipItem.bytes, h.2, stride]
  omega

theorem skipBytes_length {xs : List SkipItem} (h : ∀ x ∈ xs, x.whole = true) :
    12 * xs.length ≤ (skipBytes xs).length := by
  induction xs with
  | nil => simp
  | cons x xs ih =>
    have hxs := ih fun y hy => h y (by simp [hy])
    have hx := (SkipItem.whole_length (h x (by simp))).1
    have hs := stride_ge x.head.valueLength.toNat
    rw [skipBytes_cons]
    simp
    omega

/-- One pass per skipped descriptor brings the scan to the byte after them. -/
theorem calibrationScan_skipBytes (xs : List SkipItem) (fuel : Nat) (pre rest : List Byte) (s : State)
    (hx : ∀ x ∈ xs, x.whole = true) :
    calibrationScan (fuel + xs.length) (pre ++ (skipBytes xs ++ rest)) (s.scanTo pre.length) =
      calibrationScan fuel (pre ++ (skipBytes xs ++ rest)) (s.scanTo (pre.length + (skipBytes xs).length)) := by
  induction xs generalizing pre with
  | nil => simp [skipBytes]
  | cons x xs ih =>
    have ⟨hw, hty⟩ := SkipItem.whole_length (hx x (by simp))
    have e : pre ++ (skipBytes (x :: xs) ++ rest)
        = pre ++ (encodeDescHead x.head ++ (x.body ++ (skipBytes xs ++ rest))) := by
      simp [skipBytes_cons, SkipItem.bytes]
    have e2 : pre ++ (skipBytes (x :: xs) ++ rest) = (pre ++ x.bytes) ++ (skipBytes xs ++ rest) := by
      simp [skipBytes_cons]
    rw [List.length_cons, ← Nat.add_assoc]
    rw [calibrationScan_skip (off := pre.length) (d := x.head) rfl (by rw [e]; simp)
      (by rw [e]; exact descHead_at _ _ _) hty]
    have h := ih (pre ++ x.bytes) fun y hy => hx y (by simp [hy])
    rw [List.length_append, hw] at h
    rw [scanTo_scanTo, e2, h, skipBytes_cons, List.length_append, hw, Nat.add_assoc]

/-- CALIBRATION on a payload that begins with whole skipped descriptors goes on scanning right after them, with at
least two passes left. -/
theorem execCalibration_skipBytes (h : FrameHeader) (xs : List SkipItem) (rest : List Byte) (s : State)
    (hx : ∀ x ∈ xs, x.whole = true) :
    ∃ fuel, exec (.calibration h (skipBytes xs ++ rest)) s
      = calibrationScan (fuel + 2) (skipBytes xs ++ rest) (s.scanTo (skipBytes xs).length) := by
  have hlen := skipBytes_length hx
  refine ⟨(skipBytes xs ++ rest).length / 12 - xs.length, ?_⟩
  show calibrationScan ((skipBytes xs ++ rest).length / 12 + 2) _ (s.scanTo 0) = _
  rw [show (skipBytes xs ++ rest).length / 12 + 2
    = (skipBytes xs ++ rest).length / 12 - xs.length + 2 + xs.length by simp; omega]
  simpa using calibrationScan_skipBytes xs _ [] rest s hx

/-! ### Where the scan of any payload stops moving (42_calibration_decoder.md R120) -/

theorem scanStop_head {n off : Nat} {pay : List Byte} {d : DescHead} (hd : descHead pay off = some d) :
    scanStop (n + 1) pay off
      = if d.descriptorType = 0x0002#16 then off else scanStop n pay (off + stride d.valueLength.toNat) := by
  rw [scanStop, hd]

theorem scanStop_cut {n off : Nat} {pay : List Byte} (hd : descHead pay off = none) : scanStop n pay off = off := by
  cases n with
  | zero => rfl
  | succ n => rw [scanStop, hd]

/-- A head that is there lies inside the payload. -/
theorem descHead_some_length {pay : List Byte} {off : Nat} {d : DescHead} (hd : descHead pay off = some d) :
    off + 8 ≤ pay.length := by
  unfold descHead at hd
  split at hd
  · cases hd
  · omega

/-- With passes enough the scan moves to where it stops moving, with a pass left; there no whole head stands, or a scale
descriptor does. -/
theorem calibrationScan_scanStop (n : Nat) {pay : List Byte} {fuel off : Nat} {s : State}
    (hs : s.work.scan = some off) (hn : pay.length < off + 8 + 12 * n) (hf : pay.length + 12 ≤ off + 12 * fuel)
    (h1 : 1 ≤ fuel) :
    (∃ k, calibrationScan fuel pay s = calibrationScan (k + 1) pay (s.scanTo (scanStop n pay off))) ∧
    (descHead pay (scanStop n pay off) = none ∨
      ∃ d, descHead pay (scanStop n pay off) = some d ∧ d.descriptorType = 0x0002#16) := by
  induction n generalizing fuel off s with
  | zero =>
    have hd : descHead pay off = none := by rw [descHead, if_pos (by omega)]
    exact ⟨⟨fuel - 1, by rw [show fuel - 1 + 1 = fuel by omega]; exact congrArg _ (scanTo_self hs).symm⟩, .inl hd⟩
  | succ n ih =>
    cases hd : descHead pay off with
    | none =>
      rw [scanStop_cut hd]
      exact ⟨⟨fuel - 1, by rw [show fuel - 1 + 1 = fuel by omega]; exact congrArg _ (scanTo_self hs).symm⟩, .inl hd⟩
    | some d =>
      have h8 := descHead_some_length hd
      rw [scanStop_head hd]
      by_cases ht : d.descriptorType = 0x0002#16
      · rw [if_pos ht]
        exact ⟨⟨fuel - 1, by rw [show fuel - 1 + 1 = fuel by omega]; exact congrArg _ (scanTo_self hs).symm⟩,
          .inr ⟨d, hd, ht⟩⟩
      · rw [if_neg ht]
        have h12 := stride_ge d.valueLength.toNat
        obtain ⟨⟨k, hk⟩, hstop⟩ := ih (fuel := fuel - 1) (off := off + stride d.valueLength.toNat)
          (s := s.scanTo (off + stride d.valueLength.toNat)) rfl (by omega) (by omega) (by omega)
        refine ⟨⟨k, ?_⟩, hstop⟩
        rw [show fuel = fuel - 1 + 1 by omega, calibrationScan_skip hs (by omega) hd ht, hk, scanTo_scanTo]

end Sys2Proof.Machine
end

