-- ==== Sys2Proof/Laws/Step.lean ====
section
/-!
SUPPORT. What a commit and a step can do, said once: the outcomes of a frame's operation, the outcomes of a commit, and
one equation per case of a step. Claims about every step cite these and do not unfold the step.
-/

namespace Sys2Proof.Machine

/-! ### What a frame's operation does to the channel file -/

/-- How one commit can change the channel file: no entry appears or goes, each accumulator is extended by sign-extended
samples, and only up to the capacity. -/
structure ChanGrows (capacity : Nat) (old new : List Channel) : Prop where
  sameLength : new.length = old.length
  extends_ : ∀ (k : Nat) (o n : Channel), old[k]? = some o → new[k]? = some n →
    ∃ vs, n.samples = o.samples ++ vs ∧ (∀ v ∈ vs, isSample24 v = true) ∧
      (vs = [] ∨ n.samples.length ≤ capacity)

theorem ChanGrows.refl (capacity : Nat) (l : List Channel) : ChanGrows capacity l l :=
  ⟨rfl, fun _ _ _ ho hn => ⟨[], by rw [ho] at hn; injection hn with hn; simp [hn], by simp, .inl rfl⟩⟩

theorem ChanGrows.set {capacity : Nat} {l : List Channel} {k : Nat} {ch : Channel} (hk : l[k]? = some ch)
    (new : Channel) (vs : List Bits32) (hn : new.samples = ch.samples ++ vs) (hv : ∀ v ∈ vs, isSample24 v = true)
    (hc : vs = [] ∨ new.samples.length ≤ capacity) : ChanGrows capacity l (l.set k new) := by
  refine ⟨by simp, fun j o n ho hj => ?_⟩
  by_cases h : j = k
  · subst h
    rw [hk] at ho
    injection ho with ho
    rw [List.getElem?_set_self (List.getElem?_eq_some_iff.1 hk).1] at hj
    injection hj with hj
    subst ho; subst hj
    exact ⟨vs, hn, hv, hc⟩
  · rw [List.getElem?_set_ne (Ne.symm h), ho] at hj
    injection hj with hj
    exact ⟨[], by simp [hj], by simp, .inl rfl⟩

theorem isSample24_sample24 (b0 b1 b2 : Byte) : isSample24 (sample24 b0 b1 b2) = true := by
  have h : (sample24 b0 b1 b2).setWidth 24 = (b2 ++ b1 ++ b0 : BitVec 24) := by
    apply BitVec.eq_of_getLsbD_eq
    intro i hi
    rw [sample24, BitVec.getLsbD_setWidth, BitVec.getLsbD_signExtend]
    simp [hi, show i < 32 by omega]
  rw [isSample24, h]
  exact beq_self_eq_true _

/-- The scan of a payload, from any offset, raises a fault or ends with at most one channel's scale changed. -/
theorem calibrationScan_cases (fuel : Nat) : ∀ (pay : List Byte) (s : State) (off : Nat),
    s.chan.length = s.cfg.nChannels → s.work.scan = some off → pay.length + 12 ≤ off + 12 * fuel → 1 ≤ fuel →
    (∃ code sid, calibrationScan fuel pay s = .next (s.raise code .calibrationDecode sid) ∧
      (⟨code, .calibrationDecode, sid, 0⟩ : FaultRecord).legal = true) ∨
    (∃ chs, ChanGrows s.cfg.capacity s.chan chs ∧
      calibrationScan fuel pay s = .next { s with chan := chs, work := { scan := none, vs := s.work.vs } }) := by
  induction fuel with
  | zero => intro _ _ _ _ _ _ h; omega
  | succ fuel ih =>
    intro pay s off hl hs hb _
    by_cases hle : pay.length ≤ off
    · exact .inr ⟨s.chan, .refl _ _, calibrationScan_stop hs hle⟩
    have hlt : off < pay.length := by omega
    cases hd : descHead pay off with
    | none => exact .inl ⟨.descriptorTruncated, none, calibrationScan_cut hs hlt hd, rfl⟩
    | some d =>
      by_cases ht : d.descriptorType = 0x0002#16
      · rw [calibrationScan_scale hs hlt hd ht]
        rcases execScaleFactor_cases d.signalId d.reserved d.valueLength (descValue pay off) hl with
          ⟨code, he, hk⟩ | ⟨ch, hch, he⟩
        · exact .inl ⟨code, _, he, hk⟩
        · refine .inr ⟨_, ?_, he⟩
          exact .set ((channel_some_iff _ _ _).1 hch).2 _ [] (by simp) (by simp) (.inl rfl)
      · rw [calibrationScan_skip hs hlt hd ht]
        have h12 := stride_ge d.valueLength.toNat
        rcases ih pay (s.scanTo (off + stride d.valueLength.toNat)) _ hl rfl (by omega) (by omega) with
          ⟨code, sid, he, hk⟩ | ⟨chs, hg, he⟩
        · exact .inl ⟨code, sid, he, hk⟩
        · exact .inr ⟨chs, hg, he⟩

/-- Everything a frame's operation can do where the channel file is complete and the decoders are idle: a fault of
R191, or the channel file grown and nothing else changed. -/
theorem exec_frameInstr_cases (h : FrameHeader) (pay : List Byte) {s : State}
    (hl : s.chan.length = s.cfg.nChannels) (hw : s.work = Work.idle) :
    (∃ code step sid, exec (frameInstr h pay) s = .next (s.raise code step sid) ∧
      code ≠ .endOfStream ∧ code ≠ .streamError ∧ (⟨code, step, sid, 0⟩ : FaultRecord).legal = true) ∨
    (∃ chs, ChanGrows s.cfg.capacity s.chan chs ∧ exec (frameInstr h pay) s = .next { s with chan := chs }) := by
  have idle : ∀ chs, { s with chan := chs, work := Work.idle } = { s with chan := chs } := by
    intro chs; rw [← hw]
  have notTransport : ∀ (code : FaultCode) (step : DecodeStep) (sid : Option Bits16),
      step = .signalDecode ∨ step = .calibrationDecode → (⟨code, step, sid, 0⟩ : FaultRecord).legal = true →
      code ≠ .endOfStream ∧ code ≠ .streamError := by
    intro code step sid hs hk
    constructor <;> rintro rfl <;> rcases hs with rfl | rfl <;> simp [FaultRecord.legal] at hk
  unfold frameInstr
  split
  · rcases execSignalData_cases h pay hl with ⟨code, sid, he, hk⟩ | ⟨c, ch, vs, hch, hv, hcap, he⟩
    · exact .inl ⟨code, _, sid, he, (notTransport _ _ _ (.inl rfl) hk).1, (notTransport _ _ _ (.inl rfl) hk).2, hk⟩
    · refine .inr ⟨_, ?_, he.trans (by rw [idle])⟩
      refine .set ((channel_some_iff _ _ _).1 hch).2 _ vs rfl ?_ (.inr (by simpa using hcap))
      intro v hm
      obtain ⟨i, rfl⟩ := hv v hm
      exact isSample24_sample24 ..
  · split
    · rcases calibrationScan_cases (pay.length / 12 + 2) pay s.beginScan 0 hl rfl (by omega) (by omega) with
        ⟨code, sid, he, hk⟩ | ⟨chs, hg, he⟩
      · exact .inl ⟨code, _, sid, he, (notTransport _ _ _ (.inr rfl) hk).1, (notTransport _ _ _ (.inr rfl) hk).2, hk⟩
      · refine .inr ⟨chs, hg, he.trans ?_⟩
        rw [← idle]
        simp [State.beginScan, State.withWork, hw, Work.idle]
    · exact .inr ⟨s.chan, .refl _ _, rfl⟩

/-- Everything a commit can do under the same conditions. -/
theorem commit_cases {s : State} (hl : s.chan.length = s.cfg.nChannels) (hw : s.work = Work.idle) :
    (∃ code step sid, s.commit = .next (State.raise s code step sid) ∧
      code ≠ .endOfStream ∧ code ≠ .streamError ∧ (⟨code, step, sid, 0⟩ : FaultRecord).legal = true) ∨
    (∃ chs, ChanGrows s.cfg.capacity s.chan chs ∧
      s.commit = .next (State.settle { s with pay := [], chan := chs })) := by
  rcases exec_frameInstr_cases s.hdr s.pay (s := { s with pay := [] }) hl hw with
    ⟨code, step, sid, he, h1, h2, hk⟩ | ⟨chs, hg, he⟩
  · exact .inl ⟨code, step, sid, by rw [State.commit, he]; rfl, h1, h2, hk⟩
  · exact .inr ⟨chs, hg, by rw [State.commit, he]; rfl⟩

/-! ### The cases of a step -/

/-- Without reset a step reads the pin and takes a stream event. -/
theorem step_noReset {s : State} (h : s.noReset = true) : step s = s.pinRead.eventStep := by
  unfold step State.oneStep State.pinRead
  match hc : s.ctl with
  | [] => simp only [List.tail_nil]; rw [← hc]
  | none :: rest => rfl
  | some t :: rest => simp [State.noReset, hc] at h

/-- With reset asserted a step is the reset step. -/
theorem step_reset {s : State} {targets : List Nat} {rest : List (Option (List Nat))}
    (h : s.ctl = some targets :: rest) : step s = State.takeReset { s with ctl := rest } targets := by
  unfold step State.oneStep
  rw [h]

theorem noReset_or (s : State) : s.noReset = true ∨ ∃ targets rest, s.ctl = some targets :: rest := by
  unfold State.noReset
  split
  · rename_i t r he; exact .inr ⟨_, _, he⟩
  · exact .inl rfl

theorem running_iff (s : State) : s.running = true ↔ s.phase = .awaitingHeader ∨ s.phase = .awaitingPayload := by
  simp [State.running]

/-- Not running: nothing is accepted. -/
theorem eventStep_rest {s : State} (h : s.running = false) : s.eventStep = .next s := by
  unfold State.eventStep; rw [h]; rfl

/-- No event is offered: the block waits. -/
theorem eventStep_wait {s : State} (h : s.stream = []) : s.eventStep = .next s := by
  unfold State.eventStep; rw [h]; split <;> rfl

/-- Running with an event offered: it is accepted. -/
theorem eventStep_accept {s : State} {ev : StreamEvent} {rest : List StreamEvent} (h : s.running = true)
    (hs : s.stream = ev :: rest) : s.eventStep = State.accept { s with stream := rest } ev := by
  unfold State.eventStep; rw [h, hs]; rfl

theorem headerByte_buffers {s : State} (b : Byte) (h : s.hdrBuf.length < 27) :
    s.headerByte b = .next { s with hdrBuf := s.hdrBuf ++ [b], streamPos := s.streamPos + 1 } := by
  unfold State.headerByte
  exact if_pos h

theorem headerByte_completes {s : State} (b : Byte) (h : ¬ s.hdrBuf.length < 27)
    (hd : (decodeHeader (s.hdrBuf ++ [b])).dataLength ≠ 0#32) :
    s.headerByte b = .next { s with
      hdr := decodeHeader (s.hdrBuf ++ [b]), hdrBuf := [], pay := [], streamPos := s.streamPos + 1
      phase := .awaitingPayload } := by
  unfold State.headerByte
  simp only
  rw [if_neg (by simpa [headerBytes] using h)]
  exact if_neg hd

theorem headerByte_commits {s : State} (b : Byte) (h : ¬ s.hdrBuf.length < 27)
    (hd : (decodeHeader (s.hdrBuf ++ [b])).dataLength = 0#32) :
    s.headerByte b = State.commit { s with
      hdr := decodeHeader (s.hdrBuf ++ [b]), hdrBuf := [], pay := [], streamPos := s.streamPos + 1 } := by
  unfold State.headerByte
  simp only
  rw [if_neg (by simpa [headerBytes] using h)]
  exact if_pos hd

theorem payloadByte_buffers {s : State} (b : Byte) (h : s.pay.length + 1 ≠ s.hdr.dataLength.toNat) :
    s.payloadByte b = .next { s with pay := s.pay ++ [b], streamPos := s.streamPos + 1 } := by
  unfold State.payloadByte
  exact if_neg (by simpa using h)

theorem payloadByte_commits {s : State} (b : Byte) (h : s.pay.length + 1 = s.hdr.dataLength.toNat) :
    s.payloadByte b = State.commit { s with pay := s.pay ++ [b], streamPos := s.streamPos + 1 } := by
  unfold State.payloadByte
  exact if_pos (by simpa using h)

theorem accept_headerByte {s : State} (b : Byte) (h : s.phase = .awaitingHeader) :
    s.accept (.byte b) = s.headerByte b := if_pos h

theorem accept_payloadByte {s : State} (b : Byte) (h : s.phase = .awaitingPayload) :
    s.accept (.byte b) = s.payloadByte b := if_neg (by rw [h]; decide)

end Sys2Proof.Machine
end

