-- ==== Sys2Proof/Laws/Outside.lean ====
section
/-!
SUPPORT. What a frame's operation cannot see: the header it is not handed, the events to come and the reset pin. So
changing those before the operation is the same as changing them after it.
-/

namespace Sys2Proof.Machine

/-- `s` with the fields no frame's operation reads or writes changed. -/
def State.mapOutside (a : FrameHeader → FrameHeader) (g : List StreamEvent → List StreamEvent)
    (l : List (Option (List Nat)) → List (Option (List Nat))) (s : State) : State :=
  { s with hdr := a s.hdr, stream := g s.stream, ctl := l s.ctl }

/-- An outcome with its next state changed. -/
def mapNext (f : State → State) (r : Result) : Result := andThen r fun s => .next (f s)

@[simp] theorem mapNext_next (f : State → State) (s : State) : mapNext f (.next s) = .next (f s) := rfl

/-- A change that goes through a second part goes through both. -/
theorem andThen_mapNext {f : State → State} {r : Result} {k : State → Result}
    (hk : ∀ s, k (f s) = mapNext f (k s)) : andThen (mapNext f r) k = mapNext f (andThen r k) := by
  cases r with
  | next s => exact hk s
  | fault _ => rfl
  | refused _ => rfl

section
variable {a : FrameHeader → FrameHeader} {g : List StreamEvent → List StreamEvent}
  {l : List (Option (List Nat)) → List (Option (List Nat))}

theorem execScaleFactor_outside (sid r vl : Bits16) (value : List Byte) (s : State) :
    execScaleFactor sid r vl value (s.mapOutside a g l)
      = mapNext (State.mapOutside a g l) (execScaleFactor sid r vl value s) := by
  unfold execScaleFactor State.updateChannel
  change (if value.length < 8 then _ else if s.cfg.namesChannel sid = false then _ else
    match s.channel sid.toNat with | none => _ | some ch => _) = _
  split
  · rfl
  split
  · rfl
  cases s.channel sid.toNat <;> rfl

theorem execSkipDescriptor_outside (sid dt r vl : Bits16) (s : State) :
    execSkipDescriptor sid dt r vl (s.mapOutside a g l)
      = mapNext (State.mapOutside a g l) (execSkipDescriptor sid dt r vl s) := by
  unfold execSkipDescriptor
  change (match s.work.scan with | none => _ | some off => _) = _
  cases s.work.scan <;> rfl

theorem calibrationScan_outside (fuel : Nat) (pay : List Byte) (s : State) :
    calibrationScan fuel pay (s.mapOutside a g l)
      = mapNext (State.mapOutside a g l) (calibrationScan fuel pay s) := by
  induction fuel generalizing s with
  | zero => rfl
  | succ fuel ih =>
    unfold calibrationScan
    change (match s.work.scan with | none => _ | some off => _) = _
    cases s.work.scan with
    | none => rfl
    | some off =>
      dsimp only
      split
      · rfl
      cases descHead pay off with
      | none => rfl
      | some d =>
        dsimp only
        split
        · exact execScaleFactor_outside ..
        · rw [execSkipDescriptor_outside]
          exact andThen_mapNext ih

theorem execSignalData_outside (h h' : FrameHeader) (pay : List Byte) (s : State) :
    execSignalData h pay (s.mapOutside a g l) = mapNext (State.mapOutside a g l) (execSignalData h' pay s) := by
  unfold execSignalData
  split
  · rfl
  dsimp only
  split
  · rfl
  unfold State.updateChannel
  change (if s.cfg.namesChannel _ = false then _ else match s.channel _ with | none => _ | some ch => _) = _
  split
  · rfl
  cases s.channel (signalHead pay).signalId.toNat with
  | none => rfl
  | some ch =>
    dsimp only
    change (if s.cfg.capacity < _ then _ else _) = _
    split
    · rfl
    · rw [collectSamples_eq, collectSamples_eq]
      rfl

/-- A frame's operation sees of the header it is handed no more than messageType. -/
theorem exec_frameInstr_outside {h h' : FrameHeader} (pay : List Byte) (s : State)
    (hm : h.messageType = h'.messageType) :
    exec (frameInstr h pay) (s.mapOutside a g l)
      = mapNext (State.mapOutside a g l) (exec (frameInstr h' pay) s) := by
  unfold frameInstr
  rw [hm]
  split
  · exact execSignalData_outside h h' pay s
  split
  · exact calibrationScan_outside _ pay s.beginScan
  · rfl

theorem settle_outside (s : State) : (s.mapOutside a g l).settle = s.settle.mapOutside a g l := by
  unfold State.settle
  change (if s.phase = .faulted then _ else if s.terminated = true then _ else _) = _
  split
  · rfl
  split <;> rfl

/-- A commit sees of the header no more than messageType. -/
theorem commit_outside (s : State) (hm : (a s.hdr).messageType = s.hdr.messageType) :
    (s.mapOutside a g l).commit = mapNext (State.mapOutside a g l) s.commit := by
  unfold State.commit
  change andThen (exec (frameInstr (a s.hdr) s.pay) (State.mapOutside a g l { s with pay := [] })) _ = _
  rw [exec_frameInstr_outside (h' := s.hdr) s.pay { s with pay := [] } hm]
  exact andThen_mapNext fun t => congrArg Host.Outcome.next (settle_outside t)

end

end Sys2Proof.Machine
end

