-- ==== Sys2Proof/Laws/PerInstr.lean ====
section
/-!
SUPPORT. The family of statements made per instruction: the length of every well-formed operation's encoding
(30_encoding.md R75, R87).
-/

namespace Sys2Proof.Laws.EncodedLength

/-- A well-formed operation's encoding has the length its format gives it. -/
def Statement (i : Instr) : Prop := i.wellFormed = true → (encode i).length = i.byteLength

theorem headerDecode (h : FrameHeader) : Statement (.headerDecode h) := fun _ => rfl

theorem framed (h : FrameHeader) (pay : List Byte) (hp : h.framesPayload pay = true) :
    (encodeHeader h ++ pay).length = 28 + h.dataLength.toNat := by
  simp only [FrameHeader.framesPayload, beq_iff_eq] at hp
  rw [List.length_append, encodeHeader_length, hp]

theorem signalData (h : FrameHeader) (pay : List Byte) : Statement (.signalData h pay) := fun hw => by
  simp only [Instr.wellFormed, Bool.and_eq_true] at hw
  exact framed h pay hw.2

theorem calibration (h : FrameHeader) (pay : List Byte) : Statement (.calibration h pay) := fun hw => by
  simp only [Instr.wellFormed, Bool.and_eq_true] at hw
  exact framed h pay hw.2

theorem discard (h : FrameHeader) (pay : List Byte) : Statement (.discard h pay) := fun hw => by
  simp only [Instr.wellFormed, Bool.and_eq_true] at hw
  exact framed h pay hw.2

theorem scaleFactor (signalId reserved valueLength : Bits16) (value : List Byte) :
    Statement (.scaleFactor signalId reserved valueLength value) := fun _ => by
  simp [encode, Instr.byteLength]

theorem skipDescriptor (signalId descriptorType reserved valueLength : Bits16) :
    Statement (.skipDescriptor signalId descriptorType reserved valueLength) := fun _ => rfl

theorem sample24 (b0 b1 b2 : Byte) : Statement (.sample24 b0 b1 b2) := fun _ => rfl

end Sys2Proof.Laws.EncodedLength
end

