-- ==== Sys2Proof/Laws/Run.lean ====
section
/-!
SUPPORT. Runs of several steps: the laws of `State.after`, cited instead of unfolding it.
-/

namespace Sys2Proof.Machine

/-- A run of no steps. -/
@[simp] theorem after_zero (s : State) : s.after 0 = .next s := rfl

/-- A step and a run after it: what a run of one step more does. -/
theorem after_succ (k : Nat) (s : State) : s.after (k + 1) = andThen (step s) (State.after k) := by
  have general : ∀ (M : Host.Core) (s : M.State) (r : Host.Outcome M.State M.Fault M.Refusal), M.step s = r →
      M.run (k + 1) s = match r with | .next t => M.run k t | .fault e => .fault e | .refused e => .refused e := by
    intro M s r h
    cases r <;> rw [Host.Core.run, h]
  have h := general core s (step s) rfl
  rw [State.after, h]
  cases step s <;> rfl

/-- A run of one step is that step. -/
theorem after_one (s : State) : s.after 1 = step s := by
  rw [after_succ]
  cases step s <;> rfl

/-- A run of `a + b` steps is a run of `a` and then one of `b`. -/
theorem after_add (a b : Nat) (s : State) : s.after (a + b) = andThen (s.after a) (State.after b) := by
  induction a generalizing s with
  | zero => rw [Nat.zero_add]; rfl
  | succ a ih =>
    rw [Nat.succ_add, Nat.succ_eq_add_one, after_succ, after_succ]
    cases step s with
    | next t => exact ih t
    | fault _ => rfl
    | refused _ => rfl

end Sys2Proof.Machine
end

