-- ==== Sys2Proof/Laws/StepCases.lean ====
section
/-!
SUPPORT. Everything a step without reset can do, said once: what it keeps in every state, and its cases from a state
whose channel file is complete and whose decoders are idle.
-/

namespace Sys2Proof.Machine

theorem running_of_awaitingHeader {s : State} (h : s.phase = .awaitingHeader) : s.running = true := by
  simp [State.running, h]

theorem running_of_awaitingPayload {s : State} (h : s.phase = .awaitingPayload) : s.running = true := by
  simp [State.running, h]

/-- A running block without reset accepts the event offered. -/
theorem step_accept {s : State} {ev : StreamEvent} {rest : List StreamEvent} (h : s.noReset = true)
    (hr : s.running = true) (hs : s.stream = ev :: rest) :
    step s = State.accept { s.pinRead with stream := rest } ev := by
  rw [step_noReset h, eventStep_accept (s := s.pinRead) (by exact hr) (by exact hs)]

/-! ### What no operation and no event writes -/

/-- The fields no frame's operation writes: what the producer and the reset pin do next, the configuration, the position
and the header. -/
structure Kept (s t : State) : Prop where
  stream : t.stream = s.stream
  ctl : t.ctl = s.ctl
  cfg : t.cfg = s.cfg
  streamPos : t.streamPos = s.streamPos
  hdr : t.hdr = s.hdr

theorem execScaleFactor_kept {sid r vl : Bits16} {value : List Byte} {s t : State}
    (h : execScaleFactor sid r vl value s = .next t) : Kept s t := by
  unfold execScaleFactor at h
  split at h
  · injection h with h; subst h; exact ⟨rfl, rfl, rfl, rfl, rfl⟩
  split at h
  · injection h with h; subst h; exact ⟨rfl, rfl, rfl, rfl, rfl⟩
  unfold State.updateChannel at h
  split at h
  · cases h
  · injection h with h; subst h; exact ⟨rfl, rfl, rfl, rfl, rfl⟩

theorem calibrationScan_kept (fuel : Nat) :
    ∀ {pay : List Byte} {s t : State}, calibrationScan fuel pay s = .next t → Kept s t := by
  induction fuel with
  | zero => intro pay s t h; cases h
  | succ fuel ih =>
    intro pay s t h
    unfold calibrationScan at h
    split at h
    · injection h with h; subst h; exact ⟨rfl, rfl, rfl, rfl, rfl⟩
    split at h
    · injection h with h; subst h; exact ⟨rfl, rfl, rfl, rfl, rfl⟩
    split at h
    · injection h with h; subst h; exact ⟨rfl, rfl, rfl, rfl, rfl⟩
    split at h
    · exact execScaleFactor_kept h
    · obtain ⟨u, hu, h⟩ := andThen_eq_next h
      have := ih h
      unfold execSkipDescriptor at hu
      split at hu
      · injection hu with hu; subst hu; exact this
      · injection hu with hu; subst hu; exact ⟨this.1, this.2, this.3, this.4, this.5⟩

theorem execSignalData_kept {h0 : FrameHeader} {pay : List Byte} {s t : State}
    (h : execSignalData h0 pay s = .next t) : Kept s t := by
  unfold execSignalData at h
  split at h
  · injection h with h; subst h; exact ⟨rfl, rfl, rfl, rfl, rfl⟩
  dsimp only at h
  split at h
  · injection h with h; subst h; exact ⟨rfl, rfl, rfl, rfl, rfl⟩
  split at h
  · injection h with h; subst h; exact ⟨rfl, rfl, rfl, rfl, rfl⟩
  unfold State.updateChannel at h
  split at h
  · cases h
  dsimp only at h
  split at h
  · injection h with h; subst h; exact ⟨rfl, rfl, rfl, rfl, rfl⟩
  · injection h with h; subst h; rw [collectSamples_eq]; exact ⟨rfl, rfl, rfl, rfl, rfl⟩

/-- A frame's operation that answers a next state keeps those fields, in every state. -/
theorem exec_frameInstr_kept {h0 : FrameHeader} {pay : List Byte} {s t : State}
    (h : exec (frameInstr h0 pay) s = .next t) : Kept s t := by
  unfold frameInstr at h
  split at h
  · exact execSignalData_kept (h0 := h0) h
  split at h
  · have := calibrationScan_kept _ (show calibrationScan (pay.length / 12 + 2) pay s.beginScan = .next t from h)
    exact ⟨this.1, this.2, this.3, this.4, this.5⟩
  · injection h with h; subst h; exact ⟨rfl, rfl, rfl, rfl, rfl⟩

/-- So does a commit. -/
theorem commit_kept {s t : State} (h : s.commit = .next t) : Kept s t := by
  unfold State.commit at h
  obtain ⟨u, hu, h⟩ := andThen_eq_next h
  injection h with h; subst h
  have := exec_frameInstr_kept hu
  exact ⟨by simpa using this.stream, by simpa using this.ctl, by simpa using this.cfg,
    by simpa using this.streamPos, by simpa using this.hdr⟩

/-! ### The cases of a step -/

/-- The cases of a step without reset, from a complete channel file and idle decoders: nothing happens; a header byte is
buffered; a header is latched and its payload awaited; a payload byte is buffered; a frame commits without a fault; a
frame commits with one; a transport event. -/
inductive StepCase (s : State) : State → Prop
  | still (h : s.running = false ∨ s.stream = []) : StepCase s s.pinRead
  | headerByte (b : Byte) (rest : List StreamEvent) (hp : s.phase = .awaitingHeader)
      (hs : s.stream = .byte b :: rest) (hl : s.hdrBuf.length < 27) :
      StepCase s { s.pinRead with stream := rest, hdrBuf := s.hdrBuf ++ [b], streamPos := s.streamPos + 1 }
  | headerDone (b : Byte) (rest : List StreamEvent) (hp : s.phase = .awaitingHeader)
      (hs : s.stream = .byte b :: rest) (hd : (decodeHeader (s.hdrBuf ++ [b])).dataLength ≠ 0#32) :
      StepCase s { s.pinRead with
        stream := rest, hdr := decodeHeader (s.hdrBuf ++ [b]), hdrBuf := [], pay := []
        streamPos := s.streamPos + 1, phase := .awaitingPayload }
  | payloadByte (b : Byte) (rest : List StreamEvent) (hp : s.phase = .awaitingPayload)
      (hs : s.stream = .byte b :: rest) (hl : s.pay.length + 1 ≠ s.hdr.dataLength.toNat) :
      StepCase s { s.pinRead with stream := rest, pay := s.pay ++ [b], streamPos := s.streamPos + 1 }
  | committed (b : Byte) (rest : List StreamEvent) (h : FrameHeader) (buf : List Byte) (chs : List Channel)
      (hr : s.running = true) (hs : s.stream = .byte b :: rest)
      (hb : buf = [] ∨ (s.phase = .awaitingPayload ∧ buf = s.hdrBuf)) (hg : ChanGrows s.cfg.capacity s.chan chs) :
      StepCase s (State.settle { s.pinRead with
        stream := rest, hdr := h, hdrBuf := buf, streamPos := s.streamPos + 1, chan := chs, pay := [] })
  | faulted (b : Byte) (rest : List StreamEvent) (h : FrameHeader) (code : FaultCode) (stage : DecodeStep)
      (sid : Option Bits16) (hr : s.running = true) (hs : s.stream = .byte b :: rest)
      (h1 : code ≠ .endOfStream) (h2 : code ≠ .streamError)
      (hk : (⟨code, stage, sid, 0⟩ : FaultRecord).legal = true) :
      StepCase s (State.raise { s.pinRead with stream := rest, hdr := h, streamPos := s.streamPos + 1 } code stage sid)
  | transport (ev : StreamEvent) (rest : List StreamEvent) (code : FaultCode) (stage : DecodeStep)
      (hr : s.running = true) (hs : s.stream = ev :: rest) (he : ev = .endOfStream ∨ ev = .error)
      (h1 : code = .endOfStream ∨ code = .streamError) (hk : (⟨code, stage, none, 0⟩ : FaultRecord).legal = true) :
      StepCase s (State.raise { s.pinRead with stream := rest } code stage none)

/-- Every step without reset is one of the cases. -/
theorem stepCase (s t : State) (hl : s.chan.length = s.cfg.nChannels) (hw : s.work = Work.idle)
    (hn : s.noReset = true) (h : step s = .next t) : StepCase s t := by
  by_cases hr : s.running = true
  · cases hs : s.stream with
    | nil =>
      rw [step_noReset hn, eventStep_wait (by exact hs)] at h
      injection h with h; subst h; exact .still (.inr hs)
    | cons ev rest =>
      rw [step_accept hn hr hs] at h
      rw [running_iff] at hr
      cases ev with
      | byte b =>
        rcases hr with hp | hp
        · rw [accept_headerByte b (by exact hp)] at h
          by_cases h27 : s.hdrBuf.length < 27
          · rw [headerByte_buffers b (by exact h27)] at h
            injection h with h; subst h; exact .headerByte b rest hp hs h27
          by_cases hd : (decodeHeader (s.hdrBuf ++ [b])).dataLength = 0#32
          · rw [headerByte_commits b (by exact h27) (by exact hd)] at h
            rcases commit_cases (s := { s.pinRead with
                stream := rest, hdr := decodeHeader (s.hdrBuf ++ [b]), hdrBuf := [], pay := []
                streamPos := s.streamPos + 1 }) hl hw with ⟨code, st, sid, he, h1, h2, hk⟩ | ⟨chs, hg, he⟩
            · have := he.symm.trans h
              injection this with this; subst this
              exact .faulted b rest (decodeHeader (s.hdrBuf ++ [b])) code st sid (running_of_awaitingHeader hp) hs h1 h2 hk
            · have := he.symm.trans h
              injection this with this; subst this
              exact .committed b rest (decodeHeader (s.hdrBuf ++ [b])) [] chs (running_of_awaitingHeader hp) hs (.inl rfl) hg
          · rw [headerByte_completes b (by exact h27) (by exact hd)] at h
            injection h with h; subst h
            exact .headerDone b rest hp hs hd
        · rw [accept_payloadByte b (by exact hp)] at h
          by_cases hd : s.pay.length + 1 = s.hdr.dataLength.toNat
          · rw [payloadByte_commits b (by exact hd)] at h
            rcases commit_cases (s := { s.pinRead with
                stream := rest, pay := s.pay ++ [b], streamPos := s.streamPos + 1 }) hl hw with
              ⟨code, st, sid, he, h1, h2, hk⟩ | ⟨chs, hg, he⟩
            · have := he.symm.trans h
              injection this with this; subst this
              exact .faulted b rest s.hdr code st sid (running_of_awaitingPayload hp) hs h1 h2 hk
            · have := he.symm.trans h
              injection this with this; subst this
              exact .committed b rest s.hdr s.hdrBuf chs (running_of_awaitingPayload hp) hs (.inr ⟨hp, rfl⟩) hg
          · rw [payloadByte_buffers b (by exact hd)] at h
            injection h with h; subst h
            exact .payloadByte b rest hp hs hd
      | endOfStream =>
        injection h with h; subst h
        refine .transport _ rest .endOfStream _ (by rw [running_iff]; exact hr) hs (.inl rfl) (.inl rfl) ?_
        unfold State.readStep; split <;> rfl
      | error =>
        injection h with h; subst h
        refine .transport _ rest .streamError _ (by rw [running_iff]; exact hr) hs (.inr rfl) (.inr rfl) ?_
        unfold State.readStep; split <;> rfl
  · rw [step_noReset hn, eventStep_rest (by show s.running = false; simpa using hr)] at h
    injection h with h; subst h; exact .still (.inl (by simpa using hr))

/-- A channel file that has grown has grown each channel's samples. -/
theorem samples_of_grows {cap : Nat} {s t : State} (hg : ChanGrows cap s.chan t.chan) (c : Nat) :
    s.samples c <+: t.samples c := by
  unfold State.samples State.channel
  by_cases h0 : c = 0
  · simp [h0]
  · rw [if_neg h0, if_neg h0]
    cases ho : s.chan[c-1]? with
    | none => simp
    | some o =>
      have hlt := (List.getElem?_eq_some_iff.1 ho).1
      have hn : t.chan[c-1]? = some (t.chan[c-1]'(by rw [hg.sameLength]; exact hlt)) := List.getElem?_eq_getElem _
      obtain ⟨vs, hv, -⟩ := hg.extends_ _ _ _ ho hn
      rw [hn]; simp [hv]

end Sys2Proof.Machine
end

