-- ==== Sys2Proof/Tests/Slice0.lean ====
section
/-!
SUPPORT. The model's own tests, each naming the vector of spec/95_test_vectors.md or the rule its expected result is
worked from; and the witnesses: for every statement with hypotheses, a state and operands that meet them together.
-/

namespace Sys2Proof.Machine.Tests

/-! ### Helpers -/

/-- The next state of an outcome. -/
def nextOf (r : Result) : Option State :=
  match r with
  | .next s => some s
  | .fault _ => none
  | .refused _ => none

/-- The stop of an outcome. -/
def stopOf (r : Result) : Option Fault :=
  match r with
  | .fault e => some e
  | .next _ => none
  | .refused _ => none

/-- The refusal of an outcome. -/
def refusalOf (r : Result) : Option Refusal :=
  match r with
  | .refused e => some e
  | .next _ => none
  | .fault _ => none

/-- The operation and the bytes left, where decoding succeeds. -/
def decoded (f : Format) (p : List Byte) : Option (Instr × List Byte) :=
  match decode f p with
  | .ok r => some r
  | .error _ => none

/-- The reason decoding fails. -/
def undecoded (f : Format) (p : List Byte) : Option DecodeError :=
  match decode f p with
  | .ok _ => none
  | .error e => some e

/-- Four channels after reset, with a target each and a capacity. -/
def four (target capacity : Nat) : State :=
  State.init { nChannels := 4, targets := List.replicate 4 target, capacity := capacity } [] []

/-- One channel after reset. -/
def one (target capacity : Nat) : State :=
  State.init { nChannels := 1, targets := [target], capacity := capacity } [] []

/-- The default header of 95_test_vectors.md, with a messageType and a dataLength. -/
def hdr (messageType : Bits16) (dataLength : Bits32) : FrameHeader :=
  { resetHeader with headerLength := 28#16, messageType := messageType, dataLength := dataLength }

/-- `s` with samples already in channel 1. -/
def holding (vs : List Bits32) (s : State) : State := s.setChannel 1 { scale := Config.scaleOne, samples := vs }

/-- `s` in the middle of a payload. -/
def inPayload (h : FrameHeader) (pay : List Byte) (ev : StreamEvent) (s : State) : State :=
  { s with phase := .awaitingPayload, hdr := h, pay := pay, streamPos := 28 + pay.length, stream := [ev] }

/-- `s` with header bytes received. -/
def inHeader (buf : List Byte) (ev : StreamEvent) (s : State) : State :=
  { s with hdrBuf := buf, streamPos := buf.length, stream := [ev] }

/-- S-5's payload. -/
def payS5 : List Byte := [0x01, 0x00, 0x00, 0x00, 0x01, 0x00, 0x02, 0x00, 0x01, 0x00, 0x00, 0x02, 0x00, 0x00]

/-- S-10's payload. -/
def payS10 : List Byte := [0x01, 0x00, 0x00, 0x00, 0x01, 0x00, 0x02, 0x00, 0x00, 0x00, 0x00, 0x00, 0x00, 0x00]

/-- C-3's payload: a scale factor of 0.5 for channel 1. -/
def payC3 : List Byte :=
  [0x01, 0x00, 0x02, 0x00, 0x00, 0x00, 0x08, 0x00, 0x00, 0x00, 0x00, 0x00, 0x00, 0x00, 0xE0, 0x3F, 0x00, 0x00, 0x00,
    0x00]

/-- C-5's first descriptor, type 5 with three value bytes, whole. -/
def itemC5 : SkipItem :=
  { head := ⟨1#16, 5#16, 0#16, 3#16⟩, body := [0xAA, 0xBB, 0xCC, 0x00, 0x00, 0x00, 0x00, 0x00] }

/-- C-10's descriptor, whose stride passes the payload's end. -/
def itemC10 : SkipItem := { head := ⟨1#16, 7#16, 0#16, 100#16⟩, body := [0x00, 0x00, 0x00, 0x00] }

/-- The first 27 bytes of P1's F1. -/
def headF1 : List Byte :=
  [0x00, 0x00, 0x1C, 0x00, 0x01, 0x00, 0x00, 0x00, 0x00, 0x00, 0x00, 0x00, 0x00, 0x00, 0x00, 0x00, 0x00, 0x00, 0x00,
    0x00, 0x00, 0x00, 0x00, 0x00, 0x0E, 0x00, 0x00]

/-! ### WellFormed: a term each check refuses (30_encoding.md R75, R80, R81; 42_calibration_decoder.md R123) -/

theorem test_wf_signalData : (Instr.signalData (hdr 1 3) [1, 2, 3]).wellFormed = true := by decide
theorem test_wf_signalData_type : (Instr.signalData (hdr 0x0101 3) [1, 2, 3]).wellFormed = false := by decide
theorem test_wf_signalData_length : (Instr.signalData (hdr 1 3) [1, 2]).wellFormed = false := by decide
theorem test_wf_calibration : (Instr.calibration (hdr 8 0) []).wellFormed = true := by decide
theorem test_wf_calibration_type : (Instr.calibration (hdr 1 0) []).wellFormed = false := by decide
theorem test_wf_calibration_length : (Instr.calibration (hdr 8 0) [0]).wellFormed = false := by decide
theorem test_wf_discard : (Instr.discard (hdr 2 1) [7]).wellFormed = true := by decide
theorem test_wf_discard_signal : (Instr.discard (hdr 1 1) [7]).wellFormed = false := by decide
theorem test_wf_discard_calibration : (Instr.discard (hdr 8 1) [7]).wellFormed = false := by decide
theorem test_wf_discard_length : (Instr.discard (hdr 2 0x01000001) [7]).wellFormed = false := by decide
theorem test_wf_scaleFactor : (Instr.scaleFactor 1 0 8 (List.replicate 8 0)).wellFormed = true := by decide
theorem test_wf_scaleFactor_value : (Instr.scaleFactor 1 0 8 (List.replicate 9 0)).wellFormed = false := by decide
theorem test_wf_skipDescriptor : (Instr.skipDescriptor 1 0x0102 0 0).wellFormed = true := by decide
theorem test_wf_skipDescriptor_type : (Instr.skipDescriptor 1 2 0 0).wellFormed = false := by decide
theorem test_wf_headerDecode : (Instr.headerDecode resetHeader).wellFormed = true := by decide
theorem test_wf_sample24 : (Instr.sample24 1 2 3).wellFormed = true := by decide

/-! ### Decoding: words written out from the formats -/

/-- H-2: 28 bytes FF. -/
theorem test_decode_header_ones : decoded .header (List.replicate 28 0xFF) = some (.headerDecode
    { magic := 0xFFFF#16, headerLength := 65535#16, messageType := 65535#16, reserved1 := 0xFFFF#16
      reserved2 := 0xFFFFFFFF#32, timestampFamily := 4294967295#32, timestamp := 18446744073709551615#64
      dataLength := 4294967295#32 }, []) := by decide

/-- H-2 again: the signed reads of reserved1 and reserved2 are -1. -/
theorem test_read_signed :
    s16le (List.replicate 28 0xFF) 6 = -1 ∧ s32le (List.replicate 28 0xFF) 8 = -1 := by decide

/-- L1-1: dataLength bytes 0A 00 00 00 are 10, and the byte after the header is left over. -/
theorem test_decode_header_length :
    decoded .header (headF1.take 24 ++ [0x0A, 0x00, 0x00, 0x00, 0x77]) = some (.headerDecode (hdr 1 10), [0x77]) := by
  decide

/-- R108: 27 bytes are no header. -/
theorem test_decode_header_cut : undecoded .header headF1 = some .headerCut := by decide

/-- P1's F1 is SIGNAL_DATA with S-5's payload; the byte after it is left over. -/
theorem test_decode_signalData :
    decoded .frame (headF1 ++ [0x00] ++ payS5 ++ [0x99]) = some (.signalData (hdr 1 14) payS5, [0x99]) := by decide

/-- R166's example: header bytes 4..5 = 08 00 are CALIBRATION. -/
theorem test_decode_calibration :
    decoded .frame ([0x00, 0x00, 0x1C, 0x00, 0x08, 0x00] ++ List.replicate 18 0x00 ++ [0x14, 0x00, 0x00, 0x00] ++ payC3)
      = some (.calibration (hdr 8 20) payC3, []) := by decide

/-- X-5: messageType 0x0100 is DISCARD. -/
theorem test_decode_discard :
    decoded .frame ([0x00, 0x00, 0x1C, 0x00, 0x00, 0x01] ++ List.replicate 18 0x00 ++ [0x03, 0x00, 0x00, 0x00] ++
        [0x00, 0x00, 0x00])
      = some (.discard (hdr 0x0100 3) [0x00, 0x00, 0x00], []) := by decide

/-- X-6: messageType 0x0801 is DISCARD. -/
theorem test_dispatch_0801 : frameInstr (hdr 0x0801 2) [0, 0] = .discard (hdr 0x0801 2) [0, 0] := by decide

/-- R75: a payload one byte short is no frame. -/
theorem test_decode_frame_cut :
    undecoded .frame (headF1 ++ [0x00] ++ payS5.dropLast) = some .payloadCut := by decide

/-- C-14: a scale descriptor that ends with its value. -/
theorem test_decode_scaleFactor :
    decoded .descriptor [0x04, 0x00, 0x02, 0x00, 0x00, 0x00, 0x08, 0x00, 0xFF, 0xFF, 0xFF, 0xFF, 0xFF, 0xFF, 0xFF, 0x7F]
      = some (.scaleFactor 4 0 8 [0xFF, 0xFF, 0xFF, 0xFF, 0xFF, 0xFF, 0xFF, 0x7F], []) := by decide

/-- C-16: descriptorType 0x0102 is skipped. -/
theorem test_decode_skipDescriptor :
    decoded .descriptor [0x01, 0x00, 0x02, 0x01, 0x00, 0x00, 0x00, 0x00, 0x00, 0x00, 0x00, 0x00]
      = some (.skipDescriptor 1 0x0102 0 0, [0x00, 0x00, 0x00, 0x00]) := by decide

/-- C-2: five bytes are no descriptor head. -/
theorem test_decode_descriptor_cut :
    undecoded .descriptor [0x01, 0x00, 0x02, 0x00, 0x00] = some .descriptorCut := by decide

/-- F-S24: the first byte is low, the third high. -/
theorem test_decode_sample24 :
    decoded .sample [0x56, 0x34, 0x12, 0x00] = some (.sample24 0x56 0x34 0x12, [0x00]) := by decide

/-- R147: two bytes are no sample group. -/
theorem test_decode_sample_cut : undecoded .sample [0x56, 0x34] = some .sampleCut := by decide

/-- L1-1's header, encoded. -/
theorem test_encode_header :
    encode (.headerDecode (hdr 1 10)) = headF1.take 24 ++ [0x0A, 0x00, 0x00, 0x00] := by decide

/-- P2's F2 begins with C-5's first descriptor. -/
theorem test_encode_descriptor :
    itemC5.bytes = [0x01, 0x00, 0x05, 0x00, 0x00, 0x00, 0x03, 0x00, 0xAA, 0xBB, 0xCC, 0x00, 0x00, 0x00, 0x00, 0x00] := by
  decide

/-! ### The opcode table's words, and where the next step runs them (log 12, 13) -/

theorem test_word_signalData : decodeTableWord 16 0x0001 = some (.signalData { resetHeader with messageType := 1 } []) := by
  decide
theorem test_word_calibration : decodeTableWord 16 0x0008 = some (.calibration { resetHeader with messageType := 8 } []) := by
  decide
theorem test_word_scaleFactor : decodeTableWord 16 0x0002 = some (.scaleFactor 0 0 0 (List.replicate 8 0)) := by decide
theorem test_word_discard : decodeTableWord 16 0x0000 = some (.discard resetHeader []) := by decide
theorem test_word_sample24 : decodeTableWord 24 0xEFCDAB = some (.sample24 0xAB 0xCD 0xEF) := by decide
theorem test_word_skipDescriptor :
    decodeTableWord 64 0x0003000000050001 = some (.skipDescriptor 1 5 0 3) := by decide
theorem test_word_headerDecode :
    decodeTableWord 224 (14 * 2 ^ 192 + 2 ^ 32 + 28 * 2 ^ 16) = some (.headerDecode (hdr 1 14)) := by decide
theorem test_word_byte : decodeTableWord 8 0x00 = some (.headerDecode resetHeader) := by decide
theorem test_word_frame :
    decodeTableWord 248 (0xBEADDE * 2 ^ 224 + 3 * 2 ^ 192 + 255 * 2 ^ 32 + 28 * 2 ^ 16)
      = some (.discard (hdr 255 3) [0xDE, 0xAD, 0xBE]) := by decide

/-- SIGNAL_DATA without payload is too short (SL-8), taken as the very next step. -/
theorem test_place_signalData : (nextOf (step (State.reset.withFetchWord 16 0x0001))).bind (·.fault)
    = some { code := .payloadTooShort, step := .signalDecode, sid := none, pos := 28 } := by decide

/-- A header-only calibration frame changes nothing (SL-9). -/
theorem test_place_calibration : (nextOf (step (State.reset.withFetchWord 16 0x0008))).map (·.phase)
    = some .awaitingHeader := by decide

/-- The word's signalId 0 is out of range (C-8). -/
theorem test_place_scaleFactor : (nextOf (step (State.reset.withFetchWord 16 0x0002))).bind (·.fault)
    = some { code := .channelOutOfRange, step := .calibrationDecode, sid := some 0, pos := 44 } := by decide

/-- A placed sample group reaches channel 1's accumulator (S24-16). -/
theorem test_place_sample24 : (nextOf (step (State.reset.withFetchWord 24 0xEFCDAB))).map (·.samples 1)
    = some [0xFFEFCDAB#32] := by decide

/-- A placed header is latched and its payload awaited. -/
theorem test_place_headerDecode :
    (nextOf (step (State.reset.withFetchWord 224 (14 * 2 ^ 192 + 2 ^ 32 + 28 * 2 ^ 16)))).map
      (fun t => (t.phase, t.hdr, t.streamPos)) = some (.awaitingPayload, hdr 1 14, 28) := by decide

/-- A placed skipped descriptor ends its scan without a fault. -/
theorem test_place_skipDescriptor :
    (nextOf (step (State.reset.withFetchWord 64 0x0003000000050001))).map (fun t => (t.phase, t.fault, t.streamPos))
      = some (.awaitingHeader, none, 36) := by decide

/-! ### One operation at a time -/

/-- S24-6: bit 7 of mid is no sign bit. -/
theorem test_sample24_mid : (nextOf (exec (.sample24 0x00 0x80 0x00) (four 1 9))).map (·.work.vs)
    = some [0x00008000#32] := by decide

/-- S24-12, and S24-9 with C1's correction. -/
theorem test_sample24_ends :
    sample24 0x01 0x00 0x80 = 0xFF800001#32 ∧ sample24 0xFF 0xFF 0x7F = 0x007FFFFF#32 ∧
    sample24Shifted 0x01 0x00 0x80 = 0xFF800001#32 := by decide

/-- S-5 behind a sample already held: the samples join in payload order. -/
theorem test_signalData_appends :
    (nextOf (exec (.signalData (hdr 1 14) payS5) (holding [9#32] (four 1 9)))).map (·.samples 1)
      = some [9#32, 1#32, 2#32] := by decide

/-- S-15: the range is checked before the capacity. -/
theorem test_signalData_order :
    (nextOf (exec (.signalData (hdr 1 14)
      [0x01, 0x00, 0x00, 0x00, 0x05, 0x00, 0x02, 0x00, 0x00, 0x00, 0x00, 0x00, 0x00, 0x00])
      (holding [1#32, 2#32] (four 9 3)))).bind (·.fault)
      = some { code := .channelOutOfRange, step := .signalDecode, sid := some 5, pos := 0 } := by decide

/-- C-14: a NaN pattern is stored raw, in the last channel. -/
theorem test_scaleFactor_raw :
    (nextOf (exec (.scaleFactor 4 0 8 [0xFF, 0xFF, 0xFF, 0xFF, 0xFF, 0xFF, 0xFF, 0x7F]) (four 1 9))).bind
      (fun t => (t.channel 4).map (·.scale)) = some 0x7FFFFFFFFFFFFFFF#64 := by decide

/-- C-18: the cut value is reported before the range. -/
theorem test_scaleFactor_order :
    (nextOf (exec (.scaleFactor 5 0 8 [0x00, 0x00, 0x00, 0x00]) (four 1 9))).bind (·.fault)
      = some { code := .descriptorTruncated, step := .calibrationDecode, sid := some 5, pos := 0 } := by decide

/-- The stride table of section 6. -/
theorem test_stride : [0, 1, 3, 4, 5, 8, 9, 100, 65535].map stride
    = [12, 16, 16, 16, 20, 20, 24, 112, 65548] := by decide

/-- R124's example: a descriptor of type 5 with three value bytes moves the scan to 16. -/
theorem test_skipDescriptor_moves :
    (nextOf (exec (.skipDescriptor 1 5 0 3) (four 1 9).beginScan)).map (·.work.scan) = some (some 16) := by decide

/-- C-5: the skip, then channel 2's scale. -/
theorem test_calibration_skips :
    (nextOf (exec (.calibration (hdr 8 36) (itemC5.bytes ++
      [0x02, 0x00, 0x02, 0x00, 0x00, 0x00, 0x08, 0x00, 0x00, 0x00, 0x00, 0x00, 0x00, 0x00, 0x00, 0x40, 0x00, 0x00, 0x00,
        0x00])) (four 1 9))).map (fun t => t.chan.map (·.scale))
      = some [Config.scaleOne, 0x4000000000000000#64, Config.scaleOne, Config.scaleOne] := by decide

/-- C-11: a second head cut off by the payload's end. -/
theorem test_calibration_cut :
    (nextOf (exec (.calibration (hdr 8 15)
      [0x01, 0x00, 0x07, 0x00, 0x00, 0x00, 0x00, 0x00, 0x00, 0x00, 0x00, 0x00, 0x00, 0x00, 0x00]) (four 1 9))).bind
      (·.fault) = some { code := .descriptorTruncated, step := .calibrationDecode, sid := none, pos := 0 } := by decide

/-- X-9: a frame of type 9 is discarded although its payload would be signal data. -/
theorem test_discard :
    (nextOf (exec (frameInstr (hdr 9 11) [0x01, 0x00, 0x00, 0x00, 0x01, 0x00, 0x01, 0x00, 0x01, 0x00, 0x00])
      (one 1 9))) = some (one 1 9) := by decide

/-- H-3's field order: `hdr` is what HEADER_DECODE writes. -/
theorem test_headerDecode :
    (nextOf (exec (.headerDecode (decodeHeader (List.ofFn fun k : Fin 28 => BitVec.ofNat 8 k))) (four 1 9))).map
      (fun t => (t.hdr.messageType, t.hdr.timestamp)) = some (0x0504#16, 0x1716151413121110#64) := by decide

/-! ### The sequencer -/

/-- Reset is `init` of its own configuration (44_stream_loop.md R176). -/
theorem test_reset_is_init : State.reset = State.init State.reset.cfg [] [] := by decide

/-- P5: with every target 0 the block is Done at reset. -/
theorem test_reset_done :
    (nextOf (step { four 1 9 with ctl := [some [0, 0, 0, 0]], stream := [.byte 7] })).map
      (fun t => (t.phase, t.stream, t.streamPos)) = some (.done, [.byte 7], 0) := by decide

/-- SL-7: the last byte of a frame that reaches the target ends the run, and the events after it stay unconsumed. -/
theorem test_frame_ends_run :
    (nextOf (step { inPayload (hdr 1 11) [0x01, 0x00, 0x00, 0x00, 0x01, 0x00, 0x01, 0x00, 0x01, 0x00] (.byte 0)
      (one 1 9) with stream := [.byte 0, .byte 0, .endOfStream, .error] })).map
      (fun t => (t.phase, t.streamPos, t.samples 1, t.stream))
      = some (.done, 39, [1#32], [.byte 0, .endOfStream, .error]) := by decide

/-- SL-5: end of stream in a payload. -/
theorem test_end_of_stream :
    (nextOf (step (inPayload (hdr 1 11) [0x01, 0x00, 0x00, 0x00] .endOfStream (four 1 9)))).bind (·.fault)
      = some { code := .endOfStream, step := .payloadRead, sid := none, pos := 32 } := by decide

/-- SL-10: reset in the middle of a frame. -/
theorem test_reset_mid_frame :
    nextOf (step { inPayload (hdr 1 11) [0x01, 0x00] (.byte 0) (one 1 9) with ctl := [some [1]], stream := [] })
      = some (one 1 9) := by decide

/-- SL-12: in Faulted nothing is accepted. -/
theorem test_faulted_holds :
    let s := { (four 1 9).raise .streamError .headerRead none with stream := [.byte 1, .error] }
    nextOf (step s) = some s := by decide

/-- The notation of R88 and R89: P1's F1. -/
theorem test_notation :
    (StreamLine.frame (notedHeader 1) none [.sig 1 none 1 0 [1, 2]]).events
      = (headF1 ++ [0x00] ++ payS5).map StreamEvent.byte := by decide

/-- R89: a SCALE item is C-3's twenty bytes; s24 samples are written low byte first. -/
theorem test_notation_items :
    (PayloadItem.scale 1 0x3FE0000000000000#64).bytes = payC3 ∧ bytes24 (-8) = [0xF8, 0xFF, 0xFF] := by decide

/-! ### Witnesses: what the statements assume can hold, each clause at a value where its range ends -/

/-- The invariant as a check, for the witnesses. -/
def invCheck (s : State) : Bool :=
  decide (1 ≤ s.cfg.nChannels ∧ s.cfg.nChannels ≤ 65535) &&
  decide (s.cfg.targets.length = s.cfg.nChannels) &&
  decide (s.chan.length = s.cfg.nChannels) &&
  decide (s.phase = .awaitingHeader → s.hdrBuf.length ≤ 27 ∧ s.pay = []) &&
  decide (s.phase = .awaitingPayload → s.hdrBuf = [] ∧ s.pay.length < s.hdr.dataLength.toNat) &&
  decide (s.running = false → s.hdrBuf = [] ∧ s.pay = []) &&
  decide (s.fault ≠ none ↔ s.phase = .faulted) &&
  (match s.fault with
    | none => true
    | some r => decide (r.legal = true ∧ r.pos = s.streamPos)) &&
  decide (∀ ch ∈ s.chan, ch.samples.length ≤ s.cfg.capacity) &&
  s.chan.all (fun ch => ch.samples.all isSample24) &&
  decide (s.hdrBuf.length + s.pay.length ≤ s.streamPos) &&
  decide (s.running = true → s.terminated = false) &&
  decide (s.phase = .done → s.terminated = true) &&
  decide (s.work = Work.idle)

theorem inv_of_check {s : State} (h : invCheck s = true) : s.Inv := by
  simp only [invCheck, Bool.and_eq_true, decide_eq_true_eq] at h
  obtain ⟨⟨⟨⟨⟨⟨⟨⟨⟨⟨⟨⟨⟨h1, h2⟩, h3⟩, h4⟩, h5⟩, h6⟩, h7⟩, h8⟩, h9⟩, h10⟩, h11⟩, h12⟩, h13⟩, h14⟩ := h
  refine ⟨h1, h2, h3, h4, h5, h6, h7, fun r hr => ?_, h9, fun ch hch v hv => ?_, h11, h12, h13, h14⟩
  · rw [hr] at h8
    simpa using h8
  · exact List.all_eq_true.1 (List.all_eq_true.1 h10 ch hch) v hv

/-- One byte before a frame that brings the only channel to its target, or not, as the target says. -/
def lastByte (target : Nat) : State :=
  inPayload (hdr 1 11) [0x01, 0x00, 0x00, 0x00, 0x01, 0x00, 0x01, 0x00, 0x01, 0x00] (.byte 0) (one target 9)

/-- One byte before a header-only calibration frame (SL-9). -/
def lastHeaderByte : State :=
  inHeader ([0x00, 0x00, 0x1C, 0x00, 0x08, 0x00] ++ List.replicate 21 0x00) (.byte 0) (one 1 9)

/-- One byte before a header that declares a payload. -/
def lastHeaderByteF1 : State := inHeader headF1 (.byte 0) (one 1 9)

/-- One byte before a signal-data frame of three payload bytes, which is too short. -/
def lastByteShort : State := inPayload (hdr 1 3) [0x00, 0x00] (.byte 0) (four 1 9)

/-- One byte before a discarded frame is complete (X-4). -/
def lastByteDiscard : State := inPayload (hdr 0x00FF 3) [0xDE, 0xAD] (.byte 0xBE) (four 1 9)

/-- End of stream in a payload (SL-5). -/
def cutPayload : State := inPayload (hdr 1 11) [0x01, 0x00, 0x00, 0x00] .endOfStream (four 1 9)

/-- Done with one sample. -/
def doneState : State :=
  { one 1 9 with phase := .done, chan := [{ scale := 0x3FE0000000000000#64, samples := [1#32] }], streamPos := 39 }

/-- Faulted by an error before the first byte. -/
def faultedState : State := (four 1 9).raise .streamError .headerRead none

theorem inv_lastByte_1 : (lastByte 1).Inv := inv_of_check (by decide)
theorem inv_lastByte_2 : (lastByte 2).Inv := inv_of_check (by decide)
theorem inv_lastHeaderByte : lastHeaderByte.Inv := inv_of_check (by decide)
theorem inv_lastByteShort : lastByteShort.Inv := inv_of_check (by decide)
theorem inv_cutPayload : cutPayload.Inv := inv_of_check (by decide)
theorem inv_doneState : doneState.Inv := inv_of_check (by decide)
theorem inv_faultedState : faultedState.Inv := inv_of_check (by decide)
theorem inv_targetAbove : (one 10 9).Inv := inv_of_check (by decide)

/-! Encoding. -/

theorem witness_DecodeInvertsEncode :
    (Instr.discard (hdr 0x0800 0) []).wellFormed = true ∧
    (Instr.scaleFactor 0xFFFF 0xFFFF 0xFFFF (List.replicate 8 0xFF)).wellFormed = true ∧
    (Instr.skipDescriptor 0 0xFFFF 0 0xFFFF).wellFormed = true := by decide

theorem witness_DecodeAcceptsOnlyEncodings :
    decoded .descriptor [0x01, 0x00, 0x02, 0x00, 0x00, 0x00, 0x08, 0x00, 0xAA] = some (.scaleFactor 1 0 8 [0xAA], []) := by
  decide

theorem witness_FrameIsHeaderThenPayload :
    ([] : List Byte).length = (hdr 1 0).dataLength.toNat ∧ [1#8, 2#8, 3#8].length = (hdr 1 3).dataLength.toNat := by
  decide

theorem witness_DispatchComparesAllBits :
    (hdr 1 0).messageType.toNat = 1 ∧ (hdr 8 0).messageType.toNat = 8 ∧
    (hdr 0x0101 0).messageType.toNat ≠ 1 ∧ (hdr 0x0101 0).messageType.toNat ≠ 8 ∧
    (⟨1, 2, 0, 8⟩ : DescHead).descriptorType.toNat = 2 ∧ (⟨1, 0x0102, 0, 8⟩ : DescHead).descriptorType.toNat ≠ 2 := by
  decide

/-- Each width read to the very end of the bytes, and both signs at their boundary. -/
theorem witness_CursorReadsLittleEndian :
    7 + 1 ≤ payC3.length ∧ 18 + 2 ≤ payC3.length ∧ 16 + 4 ≤ payC3.length ∧ 12 + 8 ≤ payC3.length ∧
    2 ^ 15 ≤ natLE [0x00, 0x80] 0 2 ∧ ¬ 2 ^ 15 ≤ natLE [0xFF, 0x7F] 0 2 ∧
    2 ^ 31 ≤ natLE [0x00, 0x00, 0x00, 0x80] 0 4 ∧ ¬ 2 ^ 31 ≤ natLE [0xFF, 0xFF, 0xFF, 0x7F] 0 4 := by decide

theorem witness_HeaderDecodeLatchesFields : (headF1 ++ [0x00]).length = 28 := by decide

/-! SIGNAL_DATA: the region ends with the payload and the capacity is reached exactly. -/

theorem witness_SignalDataAppends :
    (holding [9#32] (four 1 3)).chan.length = (holding [9#32] (four 1 3)).cfg.nChannels ∧ 8 ≤ payS5.length ∧
    8 + 3 * natLE payS5 6 2 = payS5.length ∧ natLE payS5 4 2 = 1 ∧
    1 ≤ (holding [9#32] (four 1 3)).cfg.nChannels ∧
    (holding [9#32] (four 1 3)).count (natLE payS5 4 2) + natLE payS5 6 2
      = (holding [9#32] (four 1 3)).cfg.capacity := by decide

/-- Seven bytes; one byte short (S-4); signalId 0 (S-12) and 5 (S-8); one over the capacity (S-10); and none of them. -/
theorem witness_SignalDataFaultsInOrder :
    (four 1 3).chan.length = (four 1 3).cfg.nChannels ∧ (List.replicate 7 (0#8)).length < 8 ∧
    ¬ payS5.dropLast.length < 8 ∧ payS5.dropLast.length < 8 + 3 * natLE payS5.dropLast 6 2 ∧
    natLE [0x01, 0x00, 0x00, 0x00, 0x00, 0x00, 0x00, 0x00] 4 2 < 1 ∧
    (four 1 3).cfg.nChannels < natLE [0x01, 0x00, 0x00, 0x00, 0x05, 0x00, 0x01, 0x00, 0x00, 0x00, 0x00] 4 2 ∧
    (holding [1#32, 2#32] (four 1 3)).cfg.capacity
      < (holding [1#32, 2#32] (four 1 3)).count (natLE payS10 4 2) + natLE payS10 6 2 ∧
    ¬ (holding [1#32] (four 1 3)).cfg.capacity
      < (holding [1#32] (four 1 3)).count (natLE payS10 4 2) + natLE payS10 6 2 := by decide

theorem witness_SignalDataIgnoresTrailingBytes :
    8 ≤ payS5.length ∧ 8 + 3 * natLE payS5 6 2 ≤ payS5.length ∧
    8 ≤ [0x01#8, 0, 0, 0, 1, 0, 0, 0].length ∧ 8 + 3 * natLE [0x01#8, 0, 0, 0, 1, 0, 0, 0] 6 2 ≤ 8 := by decide

/-- Two frames of two samples each fill a capacity of four. -/
theorem witness_SignalFramesConcatenate :
    (four 1 4).chan.length = (four 1 4).cfg.nChannels ∧ 1 ≤ (four 1 4).cfg.nChannels ∧
    (∀ f ∈ [(hdr 1 14, payS5), (hdr 1 14, payS10)],
      8 ≤ f.2.length ∧ 8 + 3 * natLE f.2 6 2 ≤ f.2.length ∧ natLE f.2 4 2 = 1) ∧
    (four 1 4).count 1 + ([(hdr 1 14, payS5), (hdr 1 14, payS10)].map fun f => natLE f.2 6 2).sum
      = (four 1 4).cfg.capacity := by decide

/-! SCALE_FACTOR, SKIP_DESCRIPTOR, CALIBRATION: the first and the last channel, and one past each. -/

theorem witness_ScaleFactorStoresPattern :
    (four 1 9).chan.length = (four 1 9).cfg.nChannels ∧ 8 ≤ (bytes64 0x7FFFFFFFFFFFFFFF#64).length ∧
    1 ≤ (1#16).toNat ∧ (1#16).toNat ≤ (four 1 9).cfg.nChannels ∧
    1 ≤ (4#16).toNat ∧ (4#16).toNat = (four 1 9).cfg.nChannels := by decide

theorem witness_ScaleFactorFaultsInOrder :
    (List.replicate 7 (0#8)).length < 8 ∧ ¬ (List.replicate 8 (0#8)).length < 8 ∧ (0#16).toNat < 1 ∧
    (four 1 9).cfg.nChannels < (5#16).toNat ∧ ¬ (1#16).toNat < 1 ∧ ¬ (four 1 9).cfg.nChannels < (4#16).toNat ∧
    (four 1 9).chan.length = (four 1 9).cfg.nChannels := by decide

theorem witness_SkipDescriptorMovesByStride :
    (four 1 9).beginScan.work.scan = some 0 ∧ (four 1 9).work.scan = none := by decide

/-- A state of no block: a channel file with fewer entries than channels. -/
theorem witness_MissingChannelEntryStops :
    8 ≤ (bytes64 0#64).length ∧ 1 ≤ (4#16).toNat ∧ (4#16).toNat ≤ ({ four 1 9 with chan := [] } : State).cfg.nChannels ∧
    ({ four 1 9 with chan := [] } : State).chan.length < (4#16).toNat ∧
    8 ≤ payS5.length ∧ 8 + 3 * natLE payS5 6 2 ≤ payS5.length ∧ 1 ≤ natLE payS5 4 2 ∧
    natLE payS5 4 2 ≤ ({ four 1 9 with chan := [] } : State).cfg.nChannels ∧
    ({ four 1 9 with chan := [] } : State).chan.length < natLE payS5 4 2 := by decide

theorem witness_MissingChannelEntryStops_stops :
    stopOf (exec (.signalData (hdr 1 14) payS5) { four 1 9 with chan := [] }) = some (.noSuchChannel 1) := by decide

/-- A scale descriptor for channel `sid`, its value cut to `n` bytes, behind C-5's skipped descriptor. -/
def scaleBehindC5 (sid : Bits16) (n : Nat) : List Byte :=
  itemC5.bytes ++ encodeDescHead ⟨sid, 2#16, 0#16, 8#16⟩ ++ List.replicate n 0x40

/-- The scan stops at the payload's end (C-1, and C-5's first descriptor alone), past it (C-10), at a head cut to seven
bytes, at a value cut to seven, at the signalIds 0 and 5, and at the signalIds 1 and 4. -/
theorem witness_CalibrationWritesAtMostOneScale :
    (four 1 9).chan.length = (four 1 9).cfg.nChannels ∧ scanEnd [] = 0 ∧
    itemC5.bytes.length = scanEnd itemC5.bytes ∧ itemC10.bytes.length ≤ scanEnd itemC10.bytes ∧
    scanEnd (scaleBehindC5 1 0).dropLast = 16 ∧ (scaleBehindC5 1 0).dropLast.length = 16 + 7 ∧
    scanEnd (scaleBehindC5 1 7) = 16 ∧ (scaleBehindC5 1 7).length = 16 + 15 ∧
    scanEnd (scaleBehindC5 0 8) = 16 ∧ (scaleBehindC5 0 8).length = 16 + 16 ∧ natLE (scaleBehindC5 0 8) 16 2 < 1 ∧
    scanEnd (scaleBehindC5 5 8) = 16 ∧ (four 1 9).cfg.nChannels < natLE (scaleBehindC5 5 8) 16 2 ∧
    scanEnd (scaleBehindC5 1 8) = 16 ∧ natLE (scaleBehindC5 1 8) 16 2 = 1 ∧
    scanEnd (scaleBehindC5 4 8) = 16 ∧ natLE (scaleBehindC5 4 8) 16 2 = (four 1 9).cfg.nChannels := by decide

theorem witness_CalibrationAppliesFirstScale :
    (four 1 9).chan.length = (four 1 9).cfg.nChannels ∧ (∀ x ∈ [itemC5, itemC5], x.whole = true) ∧
    (bytes64 0x4000000000000000#64).length = 8 ∧ 1 ≤ (4#16).toNat ∧ (4#16).toNat = (four 1 9).cfg.nChannels := by decide

/-- C-4's shape (whole) and C-10's (the stride passes the end). -/
theorem witness_CalibrationWithoutScaleChangesNothing :
    (∀ x ∈ [itemC5], x.whole = true) ∧ itemC10.head.descriptorType ≠ 0x0002#16 ∧
    itemC10.body.length ≤ align4 itemC10.head.valueLength.toNat + 4 ∧
    itemC5.body.length = align4 itemC5.head.valueLength.toNat + 4 := by decide

theorem witness_CalibrationCutHeadFaults :
    (∀ x ∈ [itemC5], x.whole = true) ∧ 1 ≤ [0x01#8].length ∧ [0x01#8].length ≤ 7 ∧
    1 ≤ (List.replicate 7 (0#8)).length ∧ (List.replicate 7 (0#8)).length ≤ 7 := by decide

theorem witness_CalibrationScaleFaultsInOrder :
    (∀ x ∈ [itemC5], x.whole = true) ∧ (List.replicate 7 (0#8)).length < 8 ∧ 8 ≤ (List.replicate 8 (0#8)).length ∧
    (0#16).toNat < 1 ∧ (four 1 9).cfg.nChannels < (5#16).toNat := by decide

/-! The sequencer. -/

theorem witness_DiscardChangesNothing :
    lastByteDiscard.noReset = true ∧ lastByteDiscard.phase = .awaitingPayload ∧
    lastByteDiscard.stream = [.byte 0xBE] ∧
    lastByteDiscard.pay.length + 1 = lastByteDiscard.hdr.dataLength.toNat ∧
    lastByteDiscard.hdr.messageType.toNat ≠ 1 ∧ lastByteDiscard.hdr.messageType.toNat ≠ 8 := by decide

theorem witness_StepRunsTheDecodedHeader :
    lastHeaderByteF1.noReset = true ∧ lastHeaderByteF1.phase = .awaitingHeader ∧ lastHeaderByteF1.stream = [.byte 0] ∧
    lastHeaderByteF1.hdrBuf.length = 27 ∧
    decoded .header (lastHeaderByteF1.hdrBuf ++ [0]) = some (.headerDecode (hdr 1 14), []) := by decide

theorem witness_StepRunsTheDecodedFrame :
    lastByteDiscard.noReset = true ∧ lastByteDiscard.phase = .awaitingPayload ∧
    lastByteDiscard.stream = [.byte 0xBE] ∧ lastByteDiscard.pay.length + 1 = lastByteDiscard.hdr.dataLength.toNat ∧
    decoded .frame (encodeHeader lastByteDiscard.hdr ++ (lastByteDiscard.pay ++ [0xBE]))
      = some (.discard (hdr 0x00FF 3) [0xDE, 0xAD, 0xBE], []) ∧
    ({ one 1 9 with hdr := hdr 8 0 } : State).pay = [] ∧
    decoded .frame (encodeHeader ({ one 1 9 with hdr := hdr 8 0 } : State).hdr)
      = some (.calibration (hdr 8 0) [], []) := by decide

/-- The first byte of a header and the 27th. -/
theorem witness_HeaderByteIsBuffered :
    (inHeader [] (.byte 5) (one 1 9)).noReset = true ∧ (inHeader [] (.byte 5) (one 1 9)).phase = .awaitingHeader ∧
    (inHeader [] (.byte 5) (one 1 9)).stream = [.byte 5] ∧ (inHeader [] (.byte 5) (one 1 9)).hdrBuf.length ≤ 26 ∧
    (inHeader (headF1.take 26) (.byte 5) (one 1 9)).hdrBuf.length = 26 ∧
    (inHeader (headF1.take 26) (.byte 5) (one 1 9)).phase = .awaitingHeader := by decide

theorem witness_HeaderCompletionLatchesHeader :
    lastHeaderByteF1.noReset = true ∧ lastHeaderByteF1.phase = .awaitingHeader ∧ lastHeaderByteF1.stream = [.byte 0] ∧
    lastHeaderByteF1.hdrBuf.length = 27 ∧ natLE (lastHeaderByteF1.hdrBuf ++ [0]) 24 4 ≠ 0 ∧
    lastHeaderByte.noReset = true ∧ lastHeaderByte.phase = .awaitingHeader ∧ lastHeaderByte.stream = [.byte 0] ∧
    lastHeaderByte.hdrBuf.length = 27 ∧ natLE (lastHeaderByte.hdrBuf ++ [0]) 24 4 = 0 := by decide

/-- The first payload byte and the last. -/
theorem witness_PayloadByteIsBuffered :
    (inPayload (hdr 1 3) [] (.byte 5) (one 1 9)).noReset = true ∧
    (inPayload (hdr 1 3) [] (.byte 5) (one 1 9)).phase = .awaitingPayload ∧
    (inPayload (hdr 1 3) [] (.byte 5) (one 1 9)).stream = [.byte 5] ∧
    (inPayload (hdr 1 3) [] (.byte 5) (one 1 9)).pay.length + 1 ≠ (hdr 1 3).dataLength.toNat ∧
    (lastByte 1).noReset = true ∧ (lastByte 1).phase = .awaitingPayload ∧ (lastByte 1).stream = [.byte 0] ∧
    (lastByte 1).pay.length + 1 = (lastByte 1).hdr.dataLength.toNat := by decide

/-- A payload that ends the run, one that does not, and a header-only frame. -/
theorem witness_CommitEndsExactlyAtTheTargets :
    (lastByte 1).Inv ∧ (lastByte 2).Inv ∧ lastHeaderByte.Inv ∧
    ((lastByte 1).noReset = true ∧ (lastByte 1).stream = [.byte 0] ∧ (lastByte 1).phase = .awaitingPayload ∧
      (lastByte 1).pay.length + 1 = (lastByte 1).hdr.dataLength.toNat) ∧
    (lastHeaderByte.phase = .awaitingHeader ∧ lastHeaderByte.hdrBuf.length = 27 ∧
      natLE (lastHeaderByte.hdrBuf ++ [0]) 24 4 = 0) ∧
    (nextOf (step (lastByte 1))).map (fun t => decide (t.cfg.target 1 ≤ t.count 1)) = some true ∧
    (nextOf (step (lastByte 1))).map (·.phase) = some .done ∧
    (nextOf (step (lastByte 2))).map (fun t => decide (t.count 1 < t.cfg.target 1)) = some true ∧
    (nextOf (step (lastByte 2))).map (·.phase) = some .awaitingHeader ∧
    (nextOf (step lastHeaderByte)).map (·.phase) = some .awaitingHeader :=
  ⟨inv_lastByte_1, inv_lastByte_2, inv_lastHeaderByte, by decide⟩

theorem witness_TransportEventsFault :
    (inHeader [] .endOfStream (one 1 9)).noReset = true ∧ (inHeader [] .endOfStream (one 1 9)).phase = .awaitingHeader ∧
    (inHeader [] .endOfStream (one 1 9)).stream = [.endOfStream] ∧
    (inHeader headF1 .error (one 1 9)).phase = .awaitingHeader ∧ (inHeader headF1 .error (one 1 9)).stream = [.error] ∧
    cutPayload.noReset = true ∧ cutPayload.phase = .awaitingPayload ∧ cutPayload.stream = [.endOfStream] ∧
    (inPayload (hdr 1 3) [] .error (one 1 9)).phase = .awaitingPayload ∧
    (inPayload (hdr 1 3) [] .error (one 1 9)).stream = [.error] := by decide

theorem witness_DoneAndFaultedHold :
    doneState.noReset = true ∧ doneState.phase = .done ∧ faultedState.noReset = true ∧
    faultedState.phase = .faulted := by decide

theorem witness_RunningWaitsForAnEvent : (one 1 9).noReset = true ∧ (one 1 9).stream = [] := by decide

/-- Targets that are all 0, and targets that are not. -/
theorem witness_ResetInitialises :
    ({ faultedState with ctl := [some [0, 0, 0, 0], none] } : State).ctl = some [0, 0, 0, 0] :: [none] ∧
    [0, 0, 0, 0].length = faultedState.cfg.nChannels ∧ (∀ n ∈ [0, 0, 0, 0], n = 0) ∧
    ({ cutPayload with ctl := [some [0, 0, 0, 7]] } : State).ctl = some [0, 0, 0, 7] :: [] ∧
    [0, 0, 0, 7].length = cutPayload.cfg.nChannels ∧ (∃ n ∈ [0, 0, 0, 7], n ≠ 0) := by decide

theorem witness_ResetWithoutTargetsIsRefused :
    ({ four 1 9 with ctl := [some [1, 1, 1]] } : State).ctl = some [1, 1, 1] :: [] ∧
    [1, 1, 1].length ≠ (four 1 9).cfg.nChannels ∧
    refusalOf (step { four 1 9 with ctl := [some [1, 1, 1]] }) = some .targetsMissing := by decide

/-! The machine. -/

theorem witness_StepKeepsTheInvariant :
    (lastByte 1).Inv ∧ (nextOf (step (lastByte 1))).isSome = true ∧ cutPayload.Inv ∧
    (nextOf (step cutPayload)).isSome = true := ⟨inv_lastByte_1, by decide, inv_cutPayload, by decide⟩

theorem witness_StepAlwaysAnswersNext :
    ({ lastByte 1 with ctl := [none, some [7]] } : State).Inv ∧
    ({ lastByte 1 with ctl := [none, some [7]] } : State).resetsSupplied = true :=
  ⟨inv_of_check (by decide), by decide⟩

/-- A decode fault and a transport fault. -/
theorem witness_FaultingStepWritesNoChannel :
    lastByteShort.Inv ∧ lastByteShort.noReset = true ∧ lastByteShort.running = true ∧
    (nextOf (step lastByteShort)).map (fun t => (t.phase, t.fault.map (·.code)))
      = some (.faulted, some .payloadTooShort) ∧
    cutPayload.Inv ∧ cutPayload.noReset = true ∧ cutPayload.running = true ∧
    (nextOf (step cutPayload)).map (fun t => (t.phase, t.fault.map (·.code))) = some (.faulted, some .endOfStream) :=
  ⟨inv_lastByteShort, by decide, by decide, by decide, inv_cutPayload, by decide, by decide, by decide⟩

theorem witness_AccumulatorsOnlyGrow :
    (lastByte 1).Inv ∧ (lastByte 1).noReset = true ∧ (nextOf (step (lastByte 1))).map (·.samples 1) = some [1#32] :=
  ⟨inv_lastByte_1, by decide, by decide⟩

/-- A byte, an end of stream, and a block at rest. -/
theorem witness_StreamPosCountsBytes :
    (lastByte 1).noReset = true ∧ (nextOf (step (lastByte 1))).map (·.streamPos) = some 39 ∧
    cutPayload.noReset = true ∧ (nextOf (step cutPayload)).map (·.streamPos) = some 32 ∧
    doneState.noReset = true ∧ (nextOf (step doneState)).map (·.streamPos) = some 39 := by decide

theorem witness_ConfigurationFixedBetweenResets :
    (nextOf (step (lastByte 1))).isSome = true ∧ (lastByte 1).noReset = true ∧
    (nextOf (step { lastByte 1 with ctl := [some [5]] })).map (·.cfg)
      = some { nChannels := 1, targets := [5], capacity := 9 } := by decide

/-- A frame with a payload and one without, each followed by an end of stream. -/
theorem witness_WholeFrameRunsItsOperation :
    (one 1 9).phase = .awaitingHeader ∧ (one 1 9).hdrBuf = [] ∧ (one 1 9).ctl = [] ∧
    payS5.length = (hdr 1 14).dataLength.toNat ∧ ([] : List Byte).length = (hdr 255 0).dataLength.toNat ∧
    ({ one 1 9 with stream := (encode (frameInstr (hdr 1 14) payS5)).map StreamEvent.byte ++ [.endOfStream] } : State).stream
      = (encode (frameInstr (hdr 1 14) payS5)).map StreamEvent.byte ++ [.endOfStream] := by decide

theorem witness_HeldHeaderFieldsMakeNoDifference :
    ({ hdr 1 11 with magic := 0xBEEF, headerLength := 0 } : FrameHeader).messageType = (lastByte 1).hdr.messageType ∧
    ({ hdr 1 11 with magic := 0xBEEF, headerLength := 0 } : FrameHeader).dataLength = (lastByte 1).hdr.dataLength ∧
    (nextOf (step (lastByte 1))).isSome = true := by decide

/-- A target one above the capacity. -/
theorem witness_TargetAboveCapacityIsNeverDone :
    (one 10 9).Inv ∧ 1 ≤ (one 10 9).cfg.nChannels ∧ (one 10 9).cfg.capacity < (one 10 9).cfg.target 1 ∧
    (one 10 9).noReset = true ∧ (nextOf (step (one 10 9))).isSome = true :=
  ⟨inv_targetAbove, by decide, by decide, by decide, by decide⟩

/-- A block that has no reset coming, and one that stops in the middle of its first read. -/
theorem witness_ChunkingIsInvisible :
    (one 1 9).ctl = [] ∧ (lastByte 1).ctl = [] ∧
    (nextOf (State.after 3 { lastByte 1 with stream := readEvents [[0x00], [0x07, 0x08]] })).map
      (fun t => (t.phase, t.stream)) = some (.done, [.byte 0x07, .byte 0x08]) := by decide

/-! Outputs: each of the four phases, each fault code and each decode step. -/

theorem witness_ExactlyOneStatusFlag :
    (one 1 9).phase = .awaitingHeader ∧ (lastByte 1).phase = .awaitingPayload ∧ doneState.phase = .done ∧
    faultedState.phase = .faulted := by decide

theorem witness_FaultOutputsShowTheRecord :
    (lastByte 1).Inv ∧ (lastByte 1).isFaulted = false ∧
    ((four 1 9).raise .endOfStream .headerRead none).Inv ∧ ((four 1 9).raise .streamError .payloadRead none).Inv ∧
    ((four 1 9).raise .payloadTooShort .signalDecode none).Inv ∧
    ((four 1 9).raise .descriptorTruncated .calibrationDecode none).Inv ∧
    ((four 1 9).raise .channelOutOfRange .calibrationDecode (some 0xFFFF)).Inv ∧
    ((four 1 9).raise .sampleBufferOverflow .signalDecode (some 1)).Inv ∧
    ((four 1 9).raise .sampleBufferOverflow .signalDecode (some 1)).isFaulted = true :=
  ⟨inv_lastByte_1, by decide, inv_of_check (by decide), inv_of_check (by decide), inv_of_check (by decide),
    inv_of_check (by decide), inv_of_check (by decide), inv_of_check (by decide), by decide⟩

/-- R191's values, and R30's: a signal-data fault shows step 2. -/
theorem test_fault_outputs :
    faultedState.outFaultCode = 0x02#8 ∧
    ((four 1 9).raise .sampleBufferOverflow .signalDecode (some 1)).outFaultCode = 0x06#8 ∧
    ((four 1 9).raise .sampleBufferOverflow .signalDecode (some 1)).outFaultStep.toNat = 2 := by decide

theorem witness_DoneOutputsAreTheResult :
    doneState.Inv ∧ doneState.phase = .done ∧ 1 ≤ doneState.cfg.nChannels ∧
    (doneState.channel 1).isSome = true := ⟨inv_doneState, by decide, by decide, by decide⟩

end Sys2Proof.Machine.Tests
end

section
/-!
PROOFS. The scope family (00_scope.md): the Binary Cursor's reads as numbers (R10), and the reset whose inputs do not
give one TARGET value per channel (R6).
-/

namespace Sys2Proof.Machine

/-! ### The signed cursor reads (00_scope.md R10) -/

/-- A two's-complement reading, with the sign decided by comparing the number with half the range. -/
theorem toInt_eq_ite_le (w : Nat) (v : BitVec (w + 1)) :
    v.toInt = if 2 ^ w ≤ v.toNat then Int.ofNat v.toNat - 2 ^ (w + 1) else Int.ofNat v.toNat := by
  have half : 2 * v.toNat < 2 ^ (w + 1) ↔ ¬ 2 ^ w ≤ v.toNat := by omega
  rw [BitVec.toInt_eq_toNat_cond, if_congr half rfl rfl, ite_not]
  simp

theorem s16le_eq_natLE (p : List Byte) (o : Nat) :
    s16le p o = if 2 ^ 15 ≤ natLE p o 2 then Int.ofNat (natLE p o 2) - 2 ^ 16 else Int.ofNat (natLE p o 2) := by
  rw [natLE_two]
  exact toInt_eq_ite_le 15 (u16le p o)

theorem s32le_eq_natLE (p : List Byte) (o : Nat) :
    s32le p o = if 2 ^ 31 ≤ natLE p o 4 then Int.ofNat (natLE p o 4) - 2 ^ 32 else Int.ofNat (natLE p o 4) := by
  rw [natLE_four]
  exact toInt_eq_ite_le 31 (u32le p o)

/-- Settles O7: each read is the `natLE` of its width. The model reads a byte past the end as 0 in both forms, so the
equations hold at every offset and the premises on the length are not used. -/
theorem cursorReadsLittleEndian : Obligations.CursorReadsLittleEndian := by
  intro p o
  refine ⟨fun _ => ?byte, fun _ => ⟨?half, ?signedHalf⟩, fun _ => ⟨?word, ?signedWord⟩, fun _ => ⟨?double, ?bits⟩⟩
  case byte => exact (natLE_one p o).symm
  case half => exact (natLE_two p o).symm
  case signedHalf => exact s16le_eq_natLE p o
  case word => exact (natLE_four p o).symm
  case signedWord => exact s32le_eq_natLE p o
  case double => exact (natLE_eight p o).symm
  case bits => rfl

/-! ### A reset without its TARGET values (00_scope.md R6) -/

theorem takeReset_refused {s : State} {targets : List Nat} (h : targets.length ≠ s.cfg.nChannels) :
    s.takeReset targets = .refused .targetsMissing := if_neg h

/-- Settles O34: an asserted pin makes the step the reset, which refuses TARGET inputs of the wrong number. -/
theorem resetWithoutTargetsIsRefused : Obligations.ResetWithoutTargetsIsRefused := by
  intro s targets rest hctl hlen
  rw [step_reset hctl]
  exact takeReset_refused hlen

end Sys2Proof.Machine
end

section
/-!
PROOFS. The state family (10_state.md): the invariant of a step boundary and what every step keeps (R26, R28, R29, R36,
R39), reset's values (R40), the status flags (R34), the fault outputs (R30, R35), and the model's own stop (log 14).
-/

namespace Sys2Proof.Machine

/-! ### The part of the invariant no phase changes -/

/-- The clauses of `State.Inv` on the configuration, the channel file and the working variables alone. -/
structure State.Consistent (s : State) : Prop where
  channelsInRange : 1 ≤ s.cfg.nChannels ∧ s.cfg.nChannels ≤ 65535
  oneTargetEach : s.cfg.targets.length = s.cfg.nChannels
  oneEntryEach : s.chan.length = s.cfg.nChannels
  withinCapacity : ∀ ch ∈ s.chan, ch.samples.length ≤ s.cfg.capacity
  samplesSigned : ∀ ch ∈ s.chan, ∀ v ∈ ch.samples, isSample24 v = true
  workIdle : s.work = Work.idle

theorem State.Inv.consistent {s : State} (h : s.Inv) : s.Consistent where
  channelsInRange := h.channelsInRange
  oneTargetEach := h.oneTargetEach
  oneEntryEach := h.oneEntryEach
  withinCapacity := h.withinCapacity
  samplesSigned := h.samplesSigned
  workIdle := h.workIdle

theorem State.Inv.fault_eq_none {s : State} (h : s.Inv) (hp : s.phase ≠ .faulted) : s.fault = none :=
  not_not.1 (mt h.faultIffFaulted.1 hp)

/-- Each entry of a grown channel file is an old entry extended. -/
theorem ChanGrows.exists_old {capacity : Nat} {old new : List Channel} (hg : ChanGrows capacity old new) {n : Channel}
    (hn : n ∈ new) : ∃ o ∈ old, ∃ vs, n.samples = o.samples ++ vs ∧ (∀ v ∈ vs, isSample24 v = true) ∧
      (vs = [] ∨ n.samples.length ≤ capacity) := by
  obtain ⟨k, hk, rfl⟩ := List.mem_iff_getElem.1 hn
  have hko : k < old.length := hg.sameLength ▸ hk
  exact ⟨_, List.getElem_mem hko, hg.extends_ k _ _ (List.getElem?_eq_getElem hko) (List.getElem?_eq_getElem hk)⟩

/-- Growing the channel file keeps consistency. -/
theorem State.Consistent.grows {s t : State} (h : s.Consistent) (hg : ChanGrows s.cfg.capacity s.chan t.chan)
    (hcfg : t.cfg = s.cfg) (hwork : t.work = Work.idle) : t.Consistent where
  channelsInRange := hcfg ▸ h.channelsInRange
  oneTargetEach := hcfg ▸ h.oneTargetEach
  oneEntryEach := by rw [hg.sameLength, hcfg, h.oneEntryEach]
  withinCapacity := by
    intro n hn
    obtain ⟨o, ho, vs, hvs, -, hnil | hcap⟩ := hg.exists_old hn
    · rw [hcfg, hvs, hnil, List.append_nil]
      exact h.withinCapacity o ho
    · rw [hcfg]
      exact hcap
  samplesSigned := by
    intro n hn v hv
    obtain ⟨o, ho, vs, hvs, hnew, -⟩ := hg.exists_old hn
    rw [hvs, List.mem_append] at hv
    exact hv.elim (h.samplesSigned o ho v) (hnew v)
  workIdle := hwork

/-- A state with the same configuration and channel file and idle decoders is consistent too. -/
theorem State.Consistent.congr {s t : State} (h : s.Consistent) (hchan : t.chan = s.chan) (hcfg : t.cfg = s.cfg)
    (hwork : t.work = Work.idle) : t.Consistent :=
  h.grows (hchan ▸ .refl _ _) hcfg hwork

/-! ### The invariant, phase by phase (10_state.md R39) -/

theorem inv_of_awaitingHeader {s : State} (hc : s.Consistent) (hp : s.phase = .awaitingHeader)
    (hbuf : s.hdrBuf.length ≤ 27) (hpay : s.pay = []) (hf : s.fault = none) (hpos : s.hdrBuf.length ≤ s.streamPos)
    (ht : s.terminated = false) : s.Inv :=
  { hc with
    inHeader := fun _ => ⟨hbuf, hpay⟩
    inPayload := by simp [hp]
    atRest := by simp [running_of_awaitingHeader hp]
    faultIffFaulted := by simp [hf, hp]
    recordLegal := by simp [hf]
    received := by simpa [hpay] using hpos
    runningUnmet := fun _ => ht
    doneMet := by simp [hp] }

theorem inv_of_awaitingPayload {s : State} (hc : s.Consistent) (hp : s.phase = .awaitingPayload)
    (hbuf : s.hdrBuf = []) (hpay : s.pay.length < s.hdr.dataLength.toNat) (hf : s.fault = none)
    (hpos : s.pay.length ≤ s.streamPos) (ht : s.terminated = false) : s.Inv :=
  { hc with
    inHeader := by simp [hp]
    inPayload := fun _ => ⟨hbuf, hpay⟩
    atRest := by simp [running_of_awaitingPayload hp]
    faultIffFaulted := by simp [hf, hp]
    recordLegal := by simp [hf]
    received := by simpa [hbuf] using hpos
    runningUnmet := fun _ => ht
    doneMet := by simp [hp] }

theorem inv_of_done {s : State} (hc : s.Consistent) (hp : s.phase = .done) (hbuf : s.hdrBuf = []) (hpay : s.pay = [])
    (hf : s.fault = none) (ht : s.terminated = true) : s.Inv :=
  { hc with
    inHeader := by simp [hp]
    inPayload := by simp [hp]
    atRest := fun _ => ⟨hbuf, hpay⟩
    faultIffFaulted := by simp [hf, hp]
    recordLegal := by simp [hf]
    received := by simp [hbuf, hpay]
    runningUnmet := by simp [State.running, hp]
    doneMet := fun _ => ht }

/-- A fault taken in a state whose channel file is as it should be (60_exceptions.md R191, R199). -/
theorem inv_raise {s : State} {code : FaultCode} {stage : DecodeStep} {sid : Option Bits16} (hc : s.Consistent)
    (hk : (⟨code, stage, sid, 0⟩ : FaultRecord).legal = true) : (s.raise code stage sid).Inv :=
  { hc.congr (t := s.raise code stage sid) rfl rfl rfl with
    inHeader := by simp
    inPayload := by simp
    atRest := fun _ => ⟨rfl, rfl⟩
    faultIffFaulted := by simp
    recordLegal := by
      rintro r hr
      obtain rfl := Option.some.inj hr
      exact ⟨hk, rfl⟩
    received := by simp
    runningUnmet := by simp [State.running]
    doneMet := by simp }

/-- A commit, and a reset, end at a frame boundary with the termination check made (R165, R169). -/
theorem inv_settle {s : State} (hc : s.Consistent) (hbuf : s.hdrBuf = []) (hpay : s.pay = []) (hf : s.fault = none)
    (hp : s.phase ≠ .faulted) : s.settle.Inv := by
  have hphase := settle_phase s
  rw [if_neg hp] at hphase
  have hc' : s.settle.Consistent := hc.congr (by simp) (by simp) (by simpa using hc.workIdle)
  cases ht : s.terminated with
  | true =>
    rw [ht, if_pos rfl] at hphase
    exact inv_of_done hc' hphase (by simpa) (by simpa) (by simpa) (by rw [settle_terminated, ht])
  | false =>
    rw [ht, if_neg Bool.false_ne_true] at hphase
    exact inv_of_awaitingHeader hc' hphase (by simp [hbuf]) (by simpa) (by simpa) (by simp [hbuf])
      (by rw [settle_terminated, ht])

/-! ### Reset (10_state.md R40) -/

theorem initial_consistent {cfg : Cfg} (es : List StreamEvent) (l : List (Option (List Nat)))
    (hn : 1 ≤ cfg.nChannels ∧ cfg.nChannels ≤ 65535) (ht : cfg.targets.length = cfg.nChannels) :
    (State.initial cfg es l).Consistent := by
  have hreset : ∀ ch ∈ (State.initial cfg es l).chan, ch.samples = [] := by
    intro ch hch
    rw [List.eq_of_mem_replicate hch]
    rfl
  exact ⟨hn, ht, List.length_replicate, by simp_all, by simp_all, rfl⟩

theorem inv_init {cfg : Cfg} (es : List StreamEvent) (l : List (Option (List Nat)))
    (hn : 1 ≤ cfg.nChannels ∧ cfg.nChannels ≤ 65535) (ht : cfg.targets.length = cfg.nChannels) :
    (State.init cfg es l).Inv :=
  inv_settle (s := State.initial cfg es l) (initial_consistent es l hn ht) rfl rfl rfl (by simp)

theorem reset_eq_init : State.reset = State.init State.reset.cfg [] [] := rfl

theorem takeReset_eq_next {s t : State} {targets : List Nat} (h : s.takeReset targets = .next t) :
    targets.length = s.cfg.nChannels ∧ t = State.init (s.cfg.latch targets) s.stream s.ctl := by
  by_cases hlen : targets.length = s.cfg.nChannels
  · rw [State.takeReset, if_pos hlen] at h
    injection h with h
    exact ⟨hlen, h.symm⟩
  · rw [takeReset_refused hlen] at h
    cases h

theorem inv_takeReset {s t : State} {targets : List Nat} (hc : s.Consistent) (h : s.takeReset targets = .next t) :
    t.Inv := by
  obtain ⟨hlen, rfl⟩ := takeReset_eq_next h
  exact inv_init _ _ hc.channelsInRange hlen

/-- Settles O36: `State.reset` is reset's state for its own configuration. -/
theorem resetMeetsTheInvariant : Obligations.ResetMeetsTheInvariant := by
  unfold Obligations.ResetMeetsTheInvariant
  rw [reset_eq_init]
  exact inv_init [] [] (by decide) rfl

/-! ### Every step keeps the invariant (10_state.md R39) -/

theorem StepCase.grows {s t : State} (h : StepCase s t) : ChanGrows s.cfg.capacity s.chan t.chan := by
  cases h
  case committed hg => rw [State.settle_chan]; exact hg
  all_goals exact .refl _ _

theorem StepCase.consistent {s t : State} (h : StepCase s t) (hc : s.Consistent) : t.Consistent := by
  have hkept : t.cfg = s.cfg ∧ t.work = Work.idle := by cases h <;> simp [hc.workIdle]
  exact hc.grows h.grows hkept.1 hkept.2

/-- The invariant kept, case by case. -/
theorem StepCase.inv {s t : State} (h : StepCase s t) (hi : s.Inv) : t.Inv := by
  have hc := h.consistent hi.consistent
  have hterm : s.running = true → s.terminated = false := hi.runningUnmet
  cases h with
  | still _ =>
    exact { hi with }
  | headerByte b rest hp hs hl =>
    have hpay := (hi.inHeader hp).2
    have hrec := hi.received
    refine inv_of_awaitingHeader hc hp ?_ hpay (hi.fault_eq_none (by simp [hp])) ?_
      (hterm (running_of_awaitingHeader hp)) <;> simp <;> omega
  | headerDone b rest hp hs hd =>
    have hpos : 0 < (decodeHeader (s.hdrBuf ++ [b])).dataLength.toNat := by
      exact Nat.pos_of_ne_zero fun h0 => hd (BitVec.eq_of_toNat_eq h0)
    exact inv_of_awaitingPayload hc rfl rfl hpos (hi.fault_eq_none (by simp [hp])) (Nat.zero_le _)
      (hterm (running_of_awaitingHeader hp))
  | payloadByte b rest hp hs hl =>
    obtain ⟨hbuf, hlt⟩ := hi.inPayload hp
    have hrec := hi.received
    refine inv_of_awaitingPayload hc hp hbuf ?_ (hi.fault_eq_none (by simp [hp])) ?_
      (hterm (running_of_awaitingPayload hp)) <;> simp <;> omega
  | committed b rest h buf chs hr hs hb hg =>
    have hp : s.phase ≠ .faulted := by rcases (running_iff s).1 hr with hp | hp <;> simp [hp]
    have hbuf : buf = [] := hb.elim id fun hb => hb.2.trans (hi.inPayload hb.1).1
    exact inv_settle (hc.congr (by simp) (by simp) hi.workIdle) hbuf rfl (hi.fault_eq_none hp) hp
  | faulted b rest h code stage sid hr hs h1 h2 hk =>
    exact inv_raise (hi.consistent.congr rfl rfl hi.workIdle) hk
  | transport ev rest code stage hr hs he h1 hk =>
    exact inv_raise (hi.consistent.congr rfl rfl hi.workIdle) hk

/-- Settles O37: a reset step ends in an initial state, every other step in one of the cases of `StepCase`. -/
theorem stepKeepsTheInvariant : Obligations.StepKeepsTheInvariant := by
  intro s t hi h
  rcases noReset_or s with hn | ⟨targets, rest, hctl⟩
  · exact (stepCase s t hi.oneEntryEach hi.workIdle hn h).inv hi
  · rw [step_reset hctl] at h
    exact inv_takeReset (s := { s with ctl := rest }) (hi.consistent.congr rfl rfl hi.workIdle) h

/-- Settles O40: every case of a step grows the channel file. -/
theorem accumulatorsOnlyGrow : Obligations.AccumulatorsOnlyGrow := by
  intro s t hi hn h c
  have hgrown := samples_of_grows (stepCase s t hi.oneEntryEach hi.workIdle hn h).grows c
  exact ⟨hgrown, hgrown.length_le⟩

/-! ### What one step consumes (10_state.md R26) -/

/-- What a step without reset can do in every state, up to what it does to the buffers and to the channel file: it takes
a byte, it takes a transport event, or nothing happens. -/
inductive EventCase (s t : State) : Prop
  | byte (b : Byte) (rest : List StreamEvent) (h : FrameHeader) (hr : s.running = true)
      (hs : s.stream = .byte b :: rest)
      (hk : Kept { s.pinRead with stream := rest, hdr := h, streamPos := s.streamPos + 1 } t)
  | transport (ev : StreamEvent) (rest : List StreamEvent) (hr : s.running = true) (hs : s.stream = ev :: rest)
      (he : ev = .endOfStream ∨ ev = .error) (hk : Kept { s.pinRead with stream := rest } t)
  | still (h : s.running = false ∨ s.stream = []) (ht : t = s.pinRead)

theorem headerByte_kept {s t : State} {b : Byte} (h : s.headerByte b = .next t) :
    ∃ hd, Kept { s with hdr := hd, streamPos := s.streamPos + 1 } t := by
  by_cases hlen : s.hdrBuf.length < 27
  · rw [headerByte_buffers b hlen] at h
    injection h with h
    exact ⟨s.hdr, h ▸ ⟨rfl, rfl, rfl, rfl, rfl⟩⟩
  by_cases hempty : (decodeHeader (s.hdrBuf ++ [b])).dataLength = 0#32
  · rw [headerByte_commits b hlen hempty] at h
    have hk := commit_kept h
    exact ⟨_, hk.stream, hk.ctl, hk.cfg, hk.streamPos, hk.hdr⟩
  · rw [headerByte_completes b hlen hempty] at h
    injection h with h
    exact ⟨decodeHeader (s.hdrBuf ++ [b]), h ▸ ⟨rfl, rfl, rfl, rfl, rfl⟩⟩

theorem payloadByte_kept {s t : State} {b : Byte} (h : s.payloadByte b = .next t) :
    Kept { s with streamPos := s.streamPos + 1 } t := by
  by_cases hlen : s.pay.length + 1 = s.hdr.dataLength.toNat
  · rw [payloadByte_commits b hlen] at h
    have hk := commit_kept h
    exact ⟨hk.stream, hk.ctl, hk.cfg, hk.streamPos, hk.hdr⟩
  · rw [payloadByte_buffers b hlen] at h
    injection h with h
    exact h ▸ ⟨rfl, rfl, rfl, rfl, rfl⟩

theorem accept_byte_kept {s t : State} {b : Byte} (hr : s.running = true) (h : s.accept (.byte b) = .next t) :
    ∃ hd, Kept { s with hdr := hd, streamPos := s.streamPos + 1 } t := by
  rcases (running_iff s).1 hr with hp | hp
  · exact headerByte_kept (accept_headerByte b hp ▸ h)
  · exact ⟨s.hdr, payloadByte_kept (accept_payloadByte b hp ▸ h)⟩

/-- A transport event writes the fault record and the phase, and consumes no byte (44_stream_loop.md R171). -/
theorem accept_transport_kept {s t : State} {ev : StreamEvent} (he : ev = .endOfStream ∨ ev = .error)
    (h : s.accept ev = .next t) : Kept s t := by
  rcases he with rfl | rfl
  all_goals
    injection h with h
    exact h ▸ ⟨rfl, rfl, rfl, rfl, rfl⟩

theorem eventCase {s t : State} (hn : s.noReset = true) (h : step s = .next t) : EventCase s t := by
  cases hr : s.running with
  | false =>
    rw [step_noReset hn, eventStep_rest (s := s.pinRead) hr] at h
    injection h with h
    exact .still (.inl hr) h.symm
  | true =>
    cases hs : s.stream with
    | nil =>
      rw [step_noReset hn, eventStep_wait (s := s.pinRead) hs] at h
      injection h with h
      exact .still (.inr hs) h.symm
    | cons ev rest =>
      rw [step_accept hn hr hs] at h
      cases ev with
      | byte b =>
        obtain ⟨hd, hk⟩ := accept_byte_kept (s := { s.pinRead with stream := rest }) hr h
        exact .byte b rest hd hr hs hk
      | endOfStream => exact .transport _ rest hr hs (.inl rfl) (accept_transport_kept (.inl rfl) h)
      | error => exact .transport _ rest hr hs (.inr rfl) (accept_transport_kept (.inr rfl) h)

/-- Settles O41: the position and the events to come are among the fields each case of `EventCase` fixes. -/
theorem streamPosCountsBytes : Obligations.StreamPosCountsBytes := by
  intro s t hn h
  cases eventCase hn h with
  | byte b rest hd hr hs hk => exact .inl ⟨b, hr, hk.stream ▸ hs, hk.streamPos⟩
  | transport ev rest hr hs he hk =>
    refine .inr (.inl ⟨hr, ?_, hk.streamPos⟩)
    rw [hk.stream, hs]
    rcases he with rfl | rfl <;> simp
  | still hrest ht => exact .inr (.inr ⟨ht ▸ rfl, ht ▸ rfl, hrest⟩)

/-! ### The configuration (10_state.md R20, R36) -/

theorem step_noReset_cfg {s t : State} (hn : s.noReset = true) (h : step s = .next t) : t.cfg = s.cfg := by
  cases eventCase hn h with
  | byte _ _ _ _ _ hk => exact hk.cfg
  | transport _ _ _ _ _ hk => exact hk.cfg
  | still _ ht => exact ht ▸ rfl

theorem takeReset_cfg {s t : State} {targets : List Nat} (h : s.takeReset targets = .next t) :
    t.cfg = s.cfg.latch targets := by
  obtain ⟨-, rfl⟩ := takeReset_eq_next h
  exact State.checkTermination_cfg _

/-- Settles O42: reset latches the targets and nothing else of the configuration (70_reset_and_hazards.md R222). -/
theorem configurationFixedBetweenResets : Obligations.ConfigurationFixedBetweenResets := by
  intro s t h
  rcases noReset_or s with hn | ⟨targets, rest, hctl⟩
  · have hcfg := step_noReset_cfg hn h
    exact ⟨fun _ => hcfg, congrArg _ hcfg, congrArg _ hcfg⟩
  · rw [step_reset hctl] at h
    have hcfg := takeReset_cfg h
    exact ⟨fun hn => by simp [State.noReset, hctl] at hn, hcfg ▸ rfl, hcfg ▸ rfl⟩

/-! ### The fault outputs (10_state.md R30, R35) -/

theorem isFaulted_iff (s : State) : s.isFaulted = true ↔ s.phase = .faulted := by simp [State.isFaulted]

theorem isDone_iff (s : State) : s.isDone = true ↔ s.phase = .done := by simp [State.isDone]

theorem shownFault_of_not_faulted {s : State} (h : s.isFaulted = false) : s.shownFault = none := by
  simp [State.shownFault, h]

theorem State.Inv.exists_shownFault {s : State} (hi : s.Inv) (h : s.isFaulted = true) :
    ∃ r, s.fault = some r ∧ s.shownFault = some r ∧ r.pos = s.streamPos := by
  obtain ⟨r, hr⟩ := Option.ne_none_iff_exists'.1 (hi.faultIffFaulted.2 ((isFaulted_iff s).1 h))
  exact ⟨r, hr, by rw [State.shownFault, if_pos h, hr], (hi.recordLegal r hr).2⟩

theorem outFaultCode_of_shown {s : State} {r : FaultRecord} (h : s.shownFault = some r) :
    s.outFaultCode = r.code.bits := by simp [State.outFaultCode, h]

theorem outFaultStep_of_shown {s : State} {r : FaultRecord} (h : s.shownFault = some r) :
    s.outFaultStep = r.step.bits := by simp [State.outFaultStep, h]

theorem outFaultSidValid_of_shown {s : State} {r : FaultRecord} (h : s.shownFault = some r) :
    s.outFaultSidValid = r.sid.isSome := by simp [State.outFaultSidValid, h]

theorem outFaultSid_of_shown {s : State} {r : FaultRecord} {sid : Bits16} (k : Nat) (h : s.shownFault = some r)
    (hsid : r.sid = some sid) : s.outFaultSid k = sid := by simp [State.outFaultSid, h, hsid]

theorem outFaultPos_of_shown {s : State} {r : FaultRecord} (h : s.shownFault = some r) : s.outFaultPos = r.pos := by
  simp [State.outFaultPos, h]

theorem faultOutputs_of_none {s : State} (k : Nat) (h : s.shownFault = none) :
    s.outFaultCode = 0 ∧ s.outFaultStep = 0 ∧ s.outFaultSidValid = false ∧ s.outFaultSid k = 0 ∧ s.outFaultPos = 0 := by
  simp [State.outFaultCode, State.outFaultStep, State.outFaultSidValid, State.outFaultSid, State.outFaultPos, h]

/-- Settles O48: each output reads the record shown, and its encodings are those of R191 and R30. -/
theorem faultOutputsShowTheRecord : Obligations.FaultOutputsShowTheRecord := by
  intro s k hi
  refine ⟨fun h => faultOutputs_of_none k (shownFault_of_not_faulted h), fun h => ?_⟩
  obtain ⟨r, hr, hshown, hpos⟩ := hi.exists_shownFault h
  have hcode : ∀ {c : FaultCode}, r.code = c → s.outFaultCode.toNat = c.bits.toNat := by
    rintro _ rfl
    rw [outFaultCode_of_shown hshown]
  have hstep : ∀ {d : DecodeStep}, r.step = d → s.outFaultStep.toNat = d.bits.toNat := by
    rintro _ rfl
    rw [outFaultStep_of_shown hshown]
  exact ⟨r, hr, hcode, hcode, hcode, hcode, hcode, hcode, hstep, hstep, hstep, hstep,
    outFaultSidValid_of_shown hshown, fun _ hsid => outFaultSid_of_shown k hshown hsid,
    (outFaultPos_of_shown hshown).trans hpos⟩

/-! ### The status flags (10_state.md R22, R34) -/

/-- Settles O47: the three flags told apart in each phase. -/
theorem exactlyOneStatusFlag : Obligations.ExactlyOneStatusFlag := by
  intro s
  refine ⟨running_iff s, isDone_iff s, isFaulted_iff s, ?flags, rfl, ?outHeader, ?outPayload, ?outDone, ?outFaulted⟩
  case flags =>
    cases hp : s.phase with
    | awaitingHeader | awaitingPayload => left; simp [State.running, State.isDone, State.isFaulted, hp]
    | done => right; left; simp [State.running, State.isDone, State.isFaulted, hp]
    | faulted => right; right; simp [State.running, State.isDone, State.isFaulted, hp]
  all_goals
    intro hp
    rw [State.outPhase, hp]
    rfl

/-! ### Done and Faulted hold (10_state.md R41) -/

/-- Settles O31: in neither phase is the block running, so no event is accepted. -/
theorem doneAndFaultedHold : Obligations.DoneAndFaultedHold := by
  intro s hn hp
  rw [step_noReset hn]
  refine eventStep_rest ?_
  rcases hp with hp | hp <;> simp [State.running, hp]

/-! ### Reset's values (10_state.md R40) -/

theorem initial_channel {cfg : Cfg} (es : List StreamEvent) (l : List (Option (List Nat))) {c : Nat} (h1 : 1 ≤ c)
    (h2 : c ≤ cfg.nChannels) : (State.initial cfg es l).channel c = some Channel.reset := by
  rw [channel_some_iff, State.initial_chan]
  exact ⟨h1, List.getElem?_replicate_of_lt (by omega)⟩

theorem count_of_channel {s : State} {c : Nat} {ch : Channel} (h : s.channel c = some ch) :
    s.count c = ch.samples.length := by
  simp [State.count, State.samples, h]

/-- Settles O35: the fields by evaluation, each channel by the law of a replicated channel file. -/
theorem resetStateValues : Obligations.ResetStateValues := by
  refine ⟨rfl, rfl, rfl, rfl, rfl, fun c h1 h4 => ?_, rfl⟩
  have hch : State.reset.channel c = some Channel.reset := initial_channel (cfg := State.reset.cfg) [] [] h1 h4
  exact ⟨hch, count_of_channel hch⟩

/-! ### A channel the channel file has no entry for (log 14) -/

theorem channel_eq_none {s : State} {c : Nat} (h : s.chan.length < c) : s.channel c = none := by
  rw [State.channel, if_neg (by omega), List.getElem?_eq_none (by omega)]

theorem execScaleFactor_noSuchChannel (sid r vl : Bits16) {value : List Byte} {s : State} (hv : 8 ≤ value.length)
    (hc : s.cfg.namesChannel sid = true) (hnone : s.channel sid.toNat = none) :
    execScaleFactor sid r vl value s = .fault (.noSuchChannel sid.toNat) := by
  rw [execScaleFactor, if_neg (by omega), if_neg (by simp [hc]), updateChannel_none hnone]

theorem execSignalData_noSuchChannel (h : FrameHeader) {pay : List Byte} {s : State} (h8 : 8 ≤ pay.length)
    (hn : 8 + 3 * (signalHead pay).numberOfValues.toNat ≤ pay.length)
    (hc : s.cfg.namesChannel (signalHead pay).signalId = true)
    (hnone : s.channel (signalHead pay).signalId.toNat = none) :
    execSignalData h pay s = .fault (.noSuchChannel (signalHead pay).signalId.toNat) := by
  rw [execSignalData, if_neg (by omega)]
  dsimp only
  rw [if_neg (by omega), if_neg (by simp [hc]), updateChannel_none hnone]

/-- Settles O17: the checks before the channel access pass, and the access finds no entry. -/
theorem missingChannelEntryStops : Obligations.MissingChannelEntryStops := by
  constructor
  · intro sid r vl value s hv h1 h2 hlen
    exact execScaleFactor_noSuchChannel sid r vl hv ((namesChannel_iff _ _).2 ⟨h1, h2⟩) (channel_eq_none hlen)
  · intro h pay s h8 hn h1 h2 hlen
    rw [natLE_two] at hn h1 h2 hlen ⊢
    exact execSignalData_noSuchChannel h h8 hn ((namesChannel_iff _ _).2 ⟨h1, h2⟩) (channel_eq_none hlen)

end Sys2Proof.Machine
end

section
/-!
PROOFS. The encoding family (30_encoding.md): the formats read back from their bytes and the bytes from what was read
(R70 to R75, R82), the dispatches (R80, R81), the 24-bit sample (R77), and the header fields that are only held (R83, R84).
-/

namespace Sys2Proof.Machine

/-! ### The dispatches (30_encoding.md R80, R81) -/

theorem frameInstr_signalData {h : FrameHeader} (pay : List Byte) (ht : h.messageType = 0x0001#16) :
    frameInstr h pay = .signalData h pay := if_pos ht

theorem frameInstr_calibration {h : FrameHeader} (pay : List Byte) (ht : h.messageType = 0x0008#16) :
    frameInstr h pay = .calibration h pay := by
  rw [frameInstr, if_neg (by simp [ht]), if_pos ht]

theorem frameInstr_discard {h : FrameHeader} (pay : List Byte) (h1 : h.messageType ≠ 0x0001#16)
    (h8 : h.messageType ≠ 0x0008#16) : frameInstr h pay = .discard h pay := by
  rw [frameInstr, if_neg h1, if_neg h8]

theorem descInstr_scaleFactor {d : DescHead} (value : List Byte) (ht : d.descriptorType = 0x0002#16) :
    descInstr d value = .scaleFactor d.signalId d.reserved d.valueLength value := if_pos ht

theorem descInstr_skipDescriptor {d : DescHead} (value : List Byte) (ht : d.descriptorType ≠ 0x0002#16) :
    descInstr d value = .skipDescriptor d.signalId d.descriptorType d.reserved d.valueLength := if_neg ht

/-! ### Bytes long enough for a head are its encoding and the bytes after it (R70, R73, R75) -/

theorem exists_encodeHeader_append {p : List Byte} (hp : 28 ≤ p.length) : ∃ h r, p = encodeHeader h ++ r :=
  ⟨decodeHeader (p.take 28), p.drop 28, by rw [encodeHeader_decode _ (by simpa using hp), List.take_append_drop]⟩

theorem exists_encodeDescHead_append {p : List Byte} (hp : 8 ≤ p.length) : ∃ d r, p = encodeDescHead d ++ r := by
  match p, hp with
  | b0 :: b1 :: b2 :: b3 :: b4 :: b5 :: b6 :: b7 :: r, _ =>
    exact ⟨⟨b1 ++ b0, b3 ++ b2, b5 ++ b4, b7 ++ b6⟩, r, by simp only [encodeDescHead, bytes16_join]; rfl⟩

/-! ### The decoder of each format: on bytes that begin with an encoding, and on too few bytes -/

theorem decode_header_append (h : FrameHeader) (r : List Byte) :
    decode .header (encodeHeader h ++ r) = .ok (.headerDecode h, r) := by
  simp [decode, headerBytes, decodeHeader_encode]

theorem decode_header_short {p : List Byte} (hp : p.length < 28) : decode .header p = .error .headerCut := if_pos hp

theorem decode_frame_append (h : FrameHeader) {pay : List Byte} (r : List Byte)
    (hlen : pay.length = h.dataLength.toNat) :
    decode .frame (encodeHeader h ++ (pay ++ r)) = .ok (frameInstr h pay, r) := by
  simp [decode, headerBytes, decodeHeader_encode, ← hlen]

theorem decode_frame_short {p : List Byte} (hp : p.length < 28) : decode .frame p = .error .headerCut := if_pos hp

theorem decode_frame_payloadCut (h : FrameHeader) {r : List Byte} (hr : r.length < h.dataLength.toNat) :
    decode .frame (encodeHeader h ++ r) = .error .payloadCut := by
  simp [decode, headerBytes, decodeHeader_encode, hr]

theorem descHead_zero_append (d : DescHead) (r : List Byte) : descHead (encodeDescHead d ++ r) 0 = some d :=
  descHead_at [] d r

theorem decode_descriptor_scale {d : DescHead} (r : List Byte) (ht : d.descriptorType = 0x0002#16) :
    decode .descriptor (encodeDescHead d ++ r)
      = .ok (.scaleFactor d.signalId d.reserved d.valueLength (r.take 8), r.drop 8) := by
  simp [decode, descHead_zero_append, descValue, descInstr_scaleFactor _ ht, ht, List.drop_append]

theorem decode_descriptor_skip {d : DescHead} (r : List Byte) (ht : d.descriptorType ≠ 0x0002#16) :
    decode .descriptor (encodeDescHead d ++ r)
      = .ok (.skipDescriptor d.signalId d.descriptorType d.reserved d.valueLength, r) := by
  simp [decode, descHead_zero_append, descInstr_skipDescriptor _ ht, ht]

theorem decode_descriptor_short {p : List Byte} (hp : p.length < 8) :
    decode .descriptor p = .error .descriptorCut := by
  simp [decode, descHead, hp]

theorem decode_sample_short {p : List Byte} (hp : p.length < 3) : decode .sample p = .error .sampleCut := by
  match p, hp with
  | [], _ | [_], _ | [_, _], _ => rfl

/-! ### A frame's bytes (R75) -/

theorem framesPayload_iff (h : FrameHeader) (pay : List Byte) :
    h.framesPayload pay = true ↔ pay.length = h.dataLength.toNat := by simp [FrameHeader.framesPayload]

theorem wellFormed_frameInstr {h : FrameHeader} {pay : List Byte} (hlen : pay.length = h.dataLength.toNat) :
    (frameInstr h pay).wellFormed = true := by
  have hp := (framesPayload_iff h pay).2 hlen
  by_cases h1 : h.messageType = 0x0001#16
  · simp [frameInstr_signalData pay h1, Instr.wellFormed, h1, hp]
  by_cases h8 : h.messageType = 0x0008#16
  · simp [frameInstr_calibration pay h8, Instr.wellFormed, h8, hp]
  · simp [frameInstr_discard pay h1 h8, Instr.wellFormed, h1, h8, hp]

theorem format_frameInstr (h : FrameHeader) (pay : List Byte) : (frameInstr h pay).format = .frame := by
  unfold frameInstr
  split
  · rfl
  · split <;> rfl

theorem encode_frameInstr (h : FrameHeader) (pay : List Byte) : encode (frameInstr h pay) = encodeHeader h ++ pay := by
  unfold frameInstr
  split
  · rfl
  · split <;> rfl

/-- The round trip of a frame, for whichever operation its messageType selects. -/
theorem decode_encode_frameInstr (h : FrameHeader) {pay : List Byte} (hlen : pay.length = h.dataLength.toNat) :
    decode (frameInstr h pay).format (encode (frameInstr h pay)) = .ok (frameInstr h pay, []) := by
  simpa [format_frameInstr, encode_frameInstr] using decode_frame_append h [] hlen

/-! ### Decoder and encoder are inverse (R70 to R75, R82) -/

/-- Settles O2: each format's decoder on its own encoding, with the discriminant its row's check fixes. -/
theorem decodeInvertsEncode : Obligations.DecodeInvertsEncode := by
  intro i hw
  cases i with
  | headerDecode h => simpa [Instr.format, encode] using decode_header_append h []
  | signalData h pay =>
    simp only [Instr.wellFormed, Bool.and_eq_true, beq_iff_eq, framesPayload_iff] at hw
    obtain ⟨ht, hlen⟩ := hw
    exact frameInstr_signalData pay ht ▸ decode_encode_frameInstr h hlen
  | calibration h pay =>
    simp only [Instr.wellFormed, Bool.and_eq_true, beq_iff_eq, framesPayload_iff] at hw
    obtain ⟨ht, hlen⟩ := hw
    exact frameInstr_calibration pay ht ▸ decode_encode_frameInstr h hlen
  | discard h pay =>
    simp only [Instr.wellFormed, Bool.and_eq_true, bne_iff_ne, framesPayload_iff] at hw
    obtain ⟨⟨h1, h8⟩, hlen⟩ := hw
    exact frameInstr_discard pay h1 h8 ▸ decode_encode_frameInstr h hlen
  | scaleFactor sid r vl value =>
    have hlen : value.length ≤ 8 := by simpa [Instr.wellFormed] using hw
    simpa [Instr.format, encode, List.take_of_length_le hlen, List.drop_of_length_le hlen] using
      decode_descriptor_scale (d := ⟨sid, 0x0002#16, r, vl⟩) value rfl
  | skipDescriptor sid dt r vl =>
    have ht : dt ≠ 0x0002#16 := by simpa [Instr.wellFormed] using hw
    simpa [Instr.format, encode] using decode_descriptor_skip (d := ⟨sid, dt, r, vl⟩) [] ht
  | sample24 b0 b1 b2 => rfl

/-- Settles O3: bytes a decoder accepts are long enough to be an encoding and the bytes after it, and there the decoder's
answer is known. -/
theorem decodeAcceptsOnlyEncodings : Obligations.DecodeAcceptsOnlyEncodings := by
  intro f p rest i hd
  cases f with
  | header =>
    by_cases hp : p.length < 28
    · simp [decode_header_short hp] at hd
    obtain ⟨h, r, rfl⟩ := exists_encodeHeader_append (Nat.not_lt.1 hp)
    rw [decode_header_append] at hd
    cases hd
    exact ⟨rfl, rfl, rfl⟩
  | frame =>
    by_cases hp : p.length < 28
    · simp [decode_frame_short hp] at hd
    obtain ⟨h, r, rfl⟩ := exists_encodeHeader_append (Nat.not_lt.1 hp)
    by_cases hr : r.length < h.dataLength.toNat
    · simp [decode_frame_payloadCut h hr] at hd
    have hlen : (r.take h.dataLength.toNat).length = h.dataLength.toNat := by simpa using hr
    rw [← List.take_append_drop h.dataLength.toNat r, decode_frame_append h _ hlen] at hd
    cases hd
    exact ⟨wellFormed_frameInstr hlen, format_frameInstr .., by simp [encode_frameInstr]⟩
  | descriptor =>
    by_cases hp : p.length < 8
    · simp [decode_descriptor_short hp] at hd
    obtain ⟨⟨sid, dt, res, vl⟩, r, rfl⟩ := exists_encodeDescHead_append (Nat.not_lt.1 hp)
    by_cases ht : dt = 0x0002#16
    · subst ht
      rw [decode_descriptor_scale r rfl] at hd
      cases hd
      exact ⟨by simp [Instr.wellFormed], rfl, by simp [encode]⟩
    · rw [decode_descriptor_skip r ht] at hd
      cases hd
      exact ⟨by simpa [Instr.wellFormed] using ht, rfl, rfl⟩
  | sample =>
    by_cases hp : p.length < 3
    · simp [decode_sample_short hp] at hd
    match p, hp, hd with
    | b0 :: b1 :: b2 :: r, _, hd =>
      cases hd
      exact ⟨rfl, rfl, rfl⟩

/-- Settles O5: the round trip of a frame with other bytes behind it, and the length of its two parts. -/
theorem frameIsHeaderThenPayload : Obligations.FrameIsHeaderThenPayload := by
  intro h pay rest hlen
  have hmax := h.dataLength.isLt
  rw [encode_frameInstr]
  refine ⟨rfl, by simp [hlen], by omega, ?_⟩
  rw [List.append_assoc]
  exact decode_frame_append h rest hlen

/-! ### Bytes can only be too few (R82) -/

theorem decode_header_error_iff (p : List Byte) : (∃ e, decode .header p = .error e) ↔ p.length < 28 := by
  by_cases hp : p.length < 28
  · simp [decode_header_short hp, hp]
  · obtain ⟨h, r, rfl⟩ := exists_encodeHeader_append (Nat.not_lt.1 hp)
    simp [decode_header_append]

/-- The number that the last four bytes of a header are is the length it declares. -/
theorem natLE_dataLength (h : FrameHeader) (r : List Byte) : natLE (encodeHeader h ++ r) 24 4 = h.dataLength.toNat := by
  rw [natLE_four]
  exact congrArg (fun k : FrameHeader => k.dataLength.toNat) (decodeHeader_encode h r)

theorem decode_frame_error_iff (p : List Byte) :
    (∃ e, decode .frame p = .error e) ↔ p.length < 28 ∨ p.length < 28 + natLE p 24 4 := by
  by_cases hp : p.length < 28
  · simp [decode_frame_short hp, hp]
  obtain ⟨h, r, rfl⟩ := exists_encodeHeader_append (Nat.not_lt.1 hp)
  rw [natLE_dataLength]
  by_cases hr : r.length < h.dataLength.toNat
  · simp [decode_frame_payloadCut h hr, hr]
  · have hlen : (r.take h.dataLength.toNat).length = h.dataLength.toNat := by simpa using hr
    have hd := decode_frame_append h (r.drop h.dataLength.toNat) hlen
    rw [List.take_append_drop] at hd
    simp [hd, hr]

theorem decode_descriptor_error_iff (p : List Byte) : (∃ e, decode .descriptor p = .error e) ↔ p.length < 8 := by
  by_cases hp : p.length < 8
  · simp [decode_descriptor_short hp, hp]
  obtain ⟨d, r, rfl⟩ := exists_encodeDescHead_append (Nat.not_lt.1 hp)
  by_cases ht : d.descriptorType = 0x0002#16
  · simp [decode_descriptor_scale r ht]
  · simp [decode_descriptor_skip r ht]

theorem decode_sample_error_iff (p : List Byte) : (∃ e, decode .sample p = .error e) ↔ p.length < 3 := by
  match p with
  | [] | [_] | [_, _] => simp [decode]
  | _ :: _ :: _ :: _ => simp [decode]

/-- Settles O4: too few bytes fail, and enough of them begin with an encoding, which decodes. -/
theorem decodeFailsOnlyOnTooFewBytes : Obligations.DecodeFailsOnlyOnTooFewBytes := fun p =>
  ⟨decode_header_error_iff p, decode_frame_error_iff p, decode_descriptor_error_iff p, decode_sample_error_iff p⟩

/-! ### The dispatches and the known bytes -/

/-- Settles O6: two 16-bit fields are equal exactly if their numbers are. -/
theorem dispatchComparesAllBits : Obligations.DispatchComparesAllBits := by
  refine ⟨fun h pay => ⟨fun h1 => ?_, fun h8 => ?_, fun h1 h8 => ?_⟩, fun d value => ⟨fun h2 => ?_, fun h2 => ?_⟩⟩
  · exact frameInstr_signalData pay (BitVec.eq_of_toNat_eq h1)
  · exact frameInstr_calibration pay (BitVec.eq_of_toNat_eq h8)
  · exact frameInstr_discard pay (mt (congrArg BitVec.toNat) h1) (mt (congrArg BitVec.toNat) h8)
  · exact descInstr_scaleFactor value (BitVec.eq_of_toNat_eq h2)
  · exact descInstr_skipDescriptor value (mt (congrArg BitVec.toNat) h2)

/-- Settles O1: the decoder evaluated on each of the five byte strings. -/
theorem knownBytesDecode : Obligations.KnownBytesDecode := ⟨rfl, rfl, rfl, rfl, rfl⟩

/-! ### The 24-bit sample (30_encoding.md R77; 43_sample_decoder.md R142, R143) -/

theorem sample24_group_toNat (b0 b1 b2 : Byte) :
    (b2 ++ b1 ++ b0 : BitVec 24).toNat = b0.toNat + 2 ^ 8 * b1.toNat + 2 ^ 16 * b2.toNat := by
  have h0 : b0.toNat < 2 ^ 8 := b0.isLt
  have h1 : b1.toNat < 2 ^ 8 := b1.isLt
  rw [BitVec.toNat_append, ← Nat.shiftLeft_add_eq_or_of_lt h0, BitVec.toNat_append,
    ← Nat.shiftLeft_add_eq_or_of_lt h1, Nat.shiftLeft_eq, Nat.shiftLeft_eq]
  omega

theorem sample24_toInt (b0 b1 b2 : Byte) : (sample24 b0 b1 b2).toInt = (b2 ++ b1 ++ b0 : BitVec 24).toInt :=
  BitVec.toInt_signExtend_of_le (by decide)

/-- Shifting eight zero bits back out arithmetically leaves the sign extension. -/
theorem signExtend_eq_sshiftRight_append (v : BitVec 24) : v.signExtend 32 = (v ++ 0x00#8).sshiftRight 8 := by
  apply BitVec.eq_of_getLsbD_eq
  intro i hi
  rw [BitVec.getLsbD_signExtend, BitVec.getLsbD_sshiftRight]
  by_cases hlow : i < 24
  · rw [if_pos (show 8 + i < 32 by omega), BitVec.getLsbD_append]
    simp [hi, hlow]
  · rw [if_neg (show ¬ 8 + i < 32 by omega), BitVec.msb_append]
    simp [hi, hlow]

/-- Settles O9: the bounds follow from the value, and the value from the number the three bytes are. -/
theorem sample24SignExtends : Obligations.Sample24SignExtends := by
  intro b0 b1 b2 s
  have hmax : (b2 ++ b1 ++ b0 : BitVec 24).toNat < 2 ^ 24 := BitVec.isLt _
  have hval := (sample24_toInt b0 b1 b2).trans (toInt_eq_ite_le 23 _)
  rw [sample24_group_toNat] at hmax hval
  refine ⟨sample24 b0 b1 b2, _, rfl, rfl, rfl, signExtend_eq_sshiftRight_append _, ?value, ?lower, ?upper⟩
  case value => simpa only [← not_lt, ite_not] using hval
  all_goals
    rw [hval, Int.ofNat_eq_natCast]
    split <;> omega

/-! ### The header fields that are only held (30_encoding.md R83, R84) -/

/-- Two states that differ in `hdr` at most, and there not in messageType or dataLength. -/
structure AgreesButHeld (t t' : State) : Prop where
  rest : t' = { t with hdr := t'.hdr }
  messageType : t'.hdr.messageType = t.hdr.messageType
  dataLength : t'.hdr.dataLength = t.hdr.dataLength

/-- Where one outcome is a next state, the other is one that agrees with it. -/
def ResultsAgreeButHeld (r r' : Result) : Prop := ∀ t, r = .next t → ∃ t', r' = .next t' ∧ AgreesButHeld t t'

theorem ResultsAgreeButHeld.refl (r : Result) : ResultsAgreeButHeld r r := fun t hr => ⟨t, hr, rfl, rfl, rfl⟩

theorem ResultsAgreeButHeld.next {t t' : State} (h : AgreesButHeld t t') : ResultsAgreeButHeld (.next t) (.next t') := by
  intro u hu
  cases hu
  exact ⟨t', rfl, h⟩

section
variable {h : FrameHeader} {s : State} (hm : h.messageType = s.hdr.messageType) (hl : h.dataLength = s.hdr.dataLength)
include hm hl

/-- A commit writes no header and sees of it no more than messageType. -/
theorem commit_agreesButHeld : ResultsAgreeButHeld s.commit (State.commit { s with hdr := h }) := by
  intro t ht
  have hhdr := (commit_kept ht).hdr
  have hcommit := commit_outside (a := fun _ => h) (g := id) (l := id) s hm
  rw [ht] at hcommit
  exact ⟨_, hcommit, rfl, hm.trans (congrArg _ hhdr.symm), hl.trans (congrArg _ hhdr.symm)⟩

theorem headerByte_agreesButHeld (b : Byte) :
    ResultsAgreeButHeld (s.headerByte b) (State.headerByte { s with hdr := h } b) := by
  by_cases hlen : s.hdrBuf.length < 27
  · rw [headerByte_buffers b hlen, headerByte_buffers b (by exact hlen)]
    exact .next ⟨rfl, hm, hl⟩
  by_cases hempty : (decodeHeader (s.hdrBuf ++ [b])).dataLength = 0#32
  · rw [headerByte_commits b hlen hempty, headerByte_commits (s := { s with hdr := h }) b hlen hempty]
    exact .refl _
  · rw [headerByte_completes b hlen hempty, headerByte_completes (s := { s with hdr := h }) b hlen hempty]
    exact .refl _

theorem payloadByte_agreesButHeld (b : Byte) :
    ResultsAgreeButHeld (s.payloadByte b) (State.payloadByte { s with hdr := h } b) := by
  by_cases hlen : s.pay.length + 1 = s.hdr.dataLength.toNat
  · rw [payloadByte_commits b hlen, payloadByte_commits b (by exact hl ▸ hlen)]
    exact commit_agreesButHeld (s := { s with pay := s.pay ++ [b], streamPos := s.streamPos + 1 }) hm hl
  · rw [payloadByte_buffers b hlen, payloadByte_buffers b (by exact hl ▸ hlen)]
    exact .next ⟨rfl, hm, hl⟩

theorem accept_agreesButHeld (hr : s.running = true) (ev : StreamEvent) :
    ResultsAgreeButHeld (s.accept ev) (State.accept { s with hdr := h } ev) := by
  cases ev with
  | byte b =>
    rcases (running_iff s).1 hr with hp | hp
    · rw [accept_headerByte b hp, accept_headerByte b (by exact hp)]
      exact headerByte_agreesButHeld hm hl b
    · rw [accept_payloadByte b hp, accept_payloadByte b (by exact hp)]
      exact payloadByte_agreesButHeld hm hl b
  | endOfStream | error => exact .next ⟨rfl, hm, hl⟩

theorem eventStep_agreesButHeld : ResultsAgreeButHeld s.eventStep (State.eventStep { s with hdr := h }) := by
  cases hr : s.running with
  | false =>
    rw [eventStep_rest hr, eventStep_rest (by exact hr)]
    exact .next ⟨rfl, hm, hl⟩
  | true =>
    by_cases hs : s.stream = []
    · rw [eventStep_wait hs, eventStep_wait (by exact hs)]
      exact .next ⟨rfl, hm, hl⟩
    · obtain ⟨ev, rest, hs⟩ := List.exists_cons_of_ne_nil hs
      rw [eventStep_accept hr hs, eventStep_accept (s := { s with hdr := h }) hr hs]
      exact accept_agreesButHeld (s := { s with stream := rest }) hm hl hr ev

/-- Reset writes the header, whatever it was; every other step takes a stream event. -/
theorem step_agreesButHeld : ResultsAgreeButHeld (step s) (step { s with hdr := h }) := by
  rcases noReset_or s with hn | ⟨targets, rest, hctl⟩
  · rw [step_noReset hn, step_noReset (by exact hn)]
    exact eventStep_agreesButHeld (s := s.pinRead) hm hl
  · rw [step_reset hctl, step_reset (by exact hctl)]
    exact .refl _

end

/-- Settles O44: what a step does with a header depends on messageType and dataLength alone. -/
theorem heldHeaderFieldsMakeNoDifference : Obligations.HeldHeaderFieldsMakeNoDifference := by
  intro s t h hm hl hstep
  obtain ⟨t', hstep', hagree⟩ := step_agreesButHeld hm hl t hstep
  exact ⟨t', hstep', hagree.rest, hagree.messageType, hagree.dataLength⟩

end Sys2Proof.Machine
end

section
/-!
PROOFS. The header decoder family (41_header_decoder.md): HEADER_DECODE on any 28 bytes (R100, R107).
-/

namespace Sys2Proof.Machine

/-- Totality (R107): whatever the 28 bytes are, they are the encoding of the header they decode to. -/
theorem decode_header_of_length {p : List Byte} (hp : p.length = 28) :
    decode .header p = .ok (.headerDecode (decodeHeader p), []) := by
  have hd := decode_header_append (decodeHeader p) []
  rwa [List.append_nil, encodeHeader_decode p hp] at hd

@[simp] theorem exec_headerDecode (h : FrameHeader) (s : State) :
    exec (.headerDecode h) s = .next { s with hdr := h } := rfl

/-- Settles O8: the latched header is `decodeHeader` of the bytes, so each unsigned field is the cursor read at its
offset, which is `natLE` of its width, and the two reserved fields are the signed reads themselves. -/
theorem headerDecodeLatchesFields : Obligations.HeaderDecodeLatchesFields := by
  intro p s hp
  refine ⟨decodeHeader p, _, decode_header_of_length hp, exec_headerDecode _ s,
    ?magic, ?headerLength, ?messageType, ?reserved1, ?reserved2, ?timestampFamily, ?timestamp, ?dataLength, ?frame⟩
  case magic => exact (natLE_two p 0).symm
  case headerLength => exact (natLE_two p 2).symm
  case messageType => exact (natLE_two p 4).symm
  case reserved1 => exact (rfl : (u16le p 6).toInt = s16le p 6)
  case reserved2 => exact (rfl : (u32le p 8).toInt = s32le p 8)
  case timestampFamily => exact (natLE_four p 12).symm
  case timestamp => exact (natLE_eight p 16).symm
  case dataLength => exact (natLE_four p 24).symm
  case frame => rfl

end Sys2Proof.Machine
end

section
/-!
PROOFS. The calibration decoder family (42_calibration_decoder.md): SCALE_FACTOR (R123, R128 to R131), SKIP_DESCRIPTOR
(R121, R124, R133), and CALIBRATION, whose scan moves over skipped descriptors and does what SCALE_FACTOR does with the
first scale descriptor (R120, R122, R125 to R127, R134).
-/

namespace Sys2Proof.Machine

/-! ### SCALE_FACTOR (R123, R128 to R131) -/

/-- `t` is `s` with the scale pattern of channel `c` the number `v`, every accumulator and every other channel kept, and
the scan ended. -/
structure ScaleStored (s : State) (c v : Nat) (t : State) : Prop where
  scale : (t.channel c).map (fun ch => ch.scale.toNat) = some v
  samples : ∀ d, t.samples d = s.samples d
  others : ∀ d, d ≠ c → t.channel d = s.channel d
  frame : t = { s with chan := t.chan, work := { scan := none, vs := s.work.vs } }

theorem ScaleStored.count {s t : State} {c v : Nat} (h : ScaleStored s c v t) (d : Nat) : t.count d = s.count d :=
  congrArg List.length (h.samples d)

/-- A channel's samples are those of its entry, so a channel file with one entry's scale replaced holds the same. -/
theorem samples_set_scale {s t : State} {c : Nat} {ch : Channel} (hch : s.channel c = some ch) (scale : Bits64)
    (ht : t.chan = s.chan.set (c - 1) { ch with scale := scale }) (d : Nat) : t.samples d = s.samples d := by
  by_cases hd : d = c
  · subst hd
    simp [State.samples, hch, channel_set_same hch ht]
  · have hother := channel_set_other ((channel_some_iff s c ch).1 hch).1 ht hd
    simp [State.samples, hother]

theorem execScaleFactor_stores (sid r vl : Bits16) {value : List Byte} {s : State}
    (hl : s.chan.length = s.cfg.nChannels) (hv : 8 ≤ value.length) (h1 : 1 ≤ sid.toNat)
    (h2 : sid.toNat ≤ s.cfg.nChannels) :
    ∃ t, execScaleFactor sid r vl value s = .next t ∧ ScaleStored s sid.toNat (natLE value 0 8) t := by
  obtain ⟨ch, hch⟩ := channel_exists h1 (hl ▸ h2)
  refine ⟨_, execScaleFactor_accepts sid r vl hv ((namesChannel_iff _ _).2 ⟨h1, h2⟩) hch, ?scale, ?samples, ?others, rfl⟩
  case scale =>
    rw [channel_set_same hch rfl, natLE_eight]
    rfl
  case samples => exact samples_set_scale hch _ rfl
  case others => exact fun d hd => channel_set_other h1 rfl hd

theorem execScaleFactor_valueCut (sid r vl : Bits16) {value : List Byte} (s : State) (hv : value.length < 8) :
    FaultsWith s .descriptorTruncated .calibrationDecode (some sid) (execScaleFactor sid r vl value s) := by
  rw [execScaleFactor, if_pos hv]
  exact raise_faultsWith ..

theorem execScaleFactor_outOfRange (sid r vl : Bits16) {value : List Byte} {s : State} (hv : 8 ≤ value.length)
    (hc : sid.toNat < 1 ∨ s.cfg.nChannels < sid.toNat) :
    FaultsWith s .channelOutOfRange .calibrationDecode (some sid) (execScaleFactor sid r vl value s) := by
  have hno : s.cfg.namesChannel sid = false := (namesChannel_false_iff _ _).2 (by omega)
  rw [execScaleFactor, if_neg (by omega), if_pos hno]
  exact raise_faultsWith ..

/-- Settles O14: the pattern stored is the cursor's 64-bit read, which is `natLE` of the eight bytes. -/
theorem scaleFactorStoresPattern : Obligations.ScaleFactorStoresPattern := by
  intro sid r vl value s hl hv h1 h2
  obtain ⟨t, ht, hstored⟩ := execScaleFactor_stores sid r vl hl hv h1 h2
  exact ⟨t, ht, hstored.scale, hstored.samples, hstored.others, hstored.frame⟩

/-- Settles O15: the checks one after the other, and past them the state differs in the channel file and the scan. -/
theorem scaleFactorFaultsInOrder : Obligations.ScaleFactorFaultsInOrder := by
  intro sid r vl value s
  split_ifs with hv hc
  · exact execScaleFactor_valueCut sid r vl s hv
  · exact execScaleFactor_outOfRange sid r vl (Nat.not_lt.1 hv) hc
  · intro hl
    obtain ⟨t, ht, hstored⟩ := execScaleFactor_stores sid r vl hl (Nat.not_lt.1 hv) (by omega) (by omega)
    exact ⟨t, ht, by rw [hstored.frame], by rw [hstored.frame]⟩

/-! ### SKIP_DESCRIPTOR (R121, R124, R133) -/

theorem stride_bounds (n : Nat) : stride n % 4 = 0 ∧ n + 12 ≤ stride n ∧ stride n < n + 16 := by
  unfold stride align4
  omega

/-- The largest stride is that of valueLength 65533 to 65535. -/
theorem stride_le (vl : Bits16) : stride vl.toNat ≤ 65548 := by
  have hmax : vl.toNat < 65536 := vl.isLt
  unfold stride align4
  omega

/-- Settles O16: a running scan moves by `stride`, whose bounds are its definition's. -/
theorem skipDescriptorMovesByStride : Obligations.SkipDescriptorMovesByStride := by
  intro sid dt r vl s
  refine ⟨fun off hoff => ?_, execSkipDescriptor_idle sid dt r vl⟩
  obtain ⟨hmod, hlow, hhigh⟩ := stride_bounds vl.toNat
  exact ⟨stride vl.toNat, _, execSkipDescriptor_scanning sid dt r vl hoff, hmod, hlow, hhigh, stride_ge _,
    stride_le vl, rfl⟩

/-! ### CALIBRATION does what SCALE_FACTOR does with the descriptor its scan stops at -/

/-- Where the scan stands makes no difference to SCALE_FACTOR: a fault clears it, and otherwise it ends. -/
theorem execScaleFactor_scanTo (sid r vl : Bits16) (value : List Byte) (s : State) (off : Nat) :
    execScaleFactor sid r vl value (s.scanTo off) = execScaleFactor sid r vl value s := rfl

/-- The last pass of the scan, at a scale descriptor. -/
theorem calibrationScan_scanTo_scale {fuel off : Nat} {pay : List Byte} {s : State} {d : DescHead}
    (hd : descHead pay off = some d) (ht : d.descriptorType = 0x0002#16) :
    calibrationScan (fuel + 1) pay (s.scanTo off)
      = execScaleFactor d.signalId d.reserved d.valueLength (descValue pay off) s := by
  have hlen := descHead_some_length hd
  rw [calibrationScan_scale rfl (by omega) hd ht, execScaleFactor_scanTo]

/-- The last pass of the scan, at a head cut off. -/
theorem calibrationScan_scanTo_cut {fuel off : Nat} {pay : List Byte} {s : State} (hlt : off < pay.length)
    (hcut : pay.length < off + 8) :
    FaultsWith s .descriptorTruncated .calibrationDecode none (calibrationScan (fuel + 1) pay (s.scanTo off)) := by
  rw [calibrationScan_cut (s := s.scanTo off) rfl hlt (if_pos hcut)]
  exact raise_faultsWith s ..

/-- The last pass of the scan, at or past the payload's end. -/
theorem calibrationScan_scanTo_end {fuel off : Nat} {pay : List Byte} {s : State} (hle : pay.length ≤ off) :
    calibrationScan (fuel + 1) pay (s.scanTo off) = .next { s with work := { scan := none, vs := s.work.vs } } :=
  calibrationScan_stop rfl hle

/-! ### Any payload, by where its scan stops moving (R120, R134) -/

/-- CALIBRATION's last pass is at `scanEnd`, where no whole head stands or a scale descriptor does. -/
theorem execCalibration_scanEnd (h : FrameHeader) (pay : List Byte) (s : State) :
    (∃ k, exec (.calibration h pay) s = calibrationScan (k + 1) pay (s.scanTo (scanEnd pay))) ∧
    (descHead pay (scanEnd pay) = none ∨
      ∃ d, descHead pay (scanEnd pay) = some d ∧ d.descriptorType = 0x0002#16) :=
  calibrationScan_scanStop pay.length (pay := pay) (fuel := pay.length / 12 + 2) (off := 0) (s := s.beginScan) rfl
    (by omega) (by omega) (by omega)

theorem descHead_of_length {pay : List Byte} {off : Nat} (h : off + 8 ≤ pay.length) :
    descHead pay off = some ⟨u16le pay off, u16le pay (off + 2), u16le pay (off + 4), u16le pay (off + 6)⟩ :=
  if_neg (Nat.not_lt.2 h)

/-- With a whole head where the scan stops, that head is a scale descriptor's, and CALIBRATION is its SCALE_FACTOR. -/
theorem execCalibration_scale_at_scanEnd (h : FrameHeader) {pay : List Byte} (s : State)
    (hlen : scanEnd pay + 8 ≤ pay.length) :
    u16le pay (scanEnd pay + 2) = 0x0002#16 ∧
    ∃ r vl, exec (.calibration h pay) s
      = execScaleFactor (u16le pay (scanEnd pay)) r vl (descValue pay (scanEnd pay)) s := by
  have hhead := descHead_of_length hlen
  obtain ⟨⟨k, hk⟩, hstop⟩ := execCalibration_scanEnd h pay s
  have htype : u16le pay (scanEnd pay + 2) = 0x0002#16 := by simpa [hhead] using hstop
  exact ⟨htype, _, _, hk.trans (calibrationScan_scanTo_scale hhead htype)⟩

theorem descValue_length (pay : List Byte) (off : Nat) :
    (descValue pay off).length = min 8 (pay.length - (off + 8)) := by simp [descValue]

/-- Eight value bytes inside the payload are read from the payload at their offset. -/
theorem natLE_descValue {pay : List Byte} {off : Nat} (h : off + 16 ≤ pay.length) :
    natLE (descValue pay off) 0 8 = natLE pay (off + 8) 8 := by
  have hsplit : pay = pay.take (off + 8) ++ (descValue pay off ++ (pay.drop (off + 8)).drop 8) := by
    rw [descValue, List.take_append_drop, List.take_append_drop]
  have hpre : (pay.take (off + 8)).length = off + 8 := by rw [List.length_take]; omega
  have hval : 0 + 8 ≤ (descValue pay off).length := by rw [descValue_length]; omega
  calc natLE (descValue pay off) 0 8
      = (u64le (descValue pay off ++ (pay.drop (off + 8)).drop 8) 0).toNat := by
        rw [natLE_eight, u64le_append_left _ _ _ hval]
    _ = (u64le (pay.take (off + 8) ++ (descValue pay off ++ (pay.drop (off + 8)).drop 8)) (off + 8)).toNat := by
        rw [u64le_append_right _ _ _ hpre.le, hpre, Nat.sub_self]
    _ = natLE pay (off + 8) 8 := by rw [← hsplit, natLE_eight]

/-- Settles O18: past the checks of the scan itself the outcome is SCALE_FACTOR's, in the order of its own checks. -/
theorem calibrationWritesAtMostOneScale : Obligations.CalibrationWritesAtMostOneScale := by
  intro h pay s hl
  obtain ⟨k, hk⟩ := (execCalibration_scanEnd h pay s).1
  split_ifs with hend hhead hvalue hrange
  · exact hk.trans (calibrationScan_scanTo_end hend)
  · exact hk ▸ calibrationScan_scanTo_cut (Nat.not_le.1 hend) hhead
  all_goals
    obtain ⟨htype, r, vl, hexec⟩ := execCalibration_scale_at_scanEnd h s (Nat.not_lt.1 hhead)
    rw [hexec]
  · exact execScaleFactor_valueCut _ r vl s (by rw [descValue_length]; omega)
  · rw [natLE_two pay (scanEnd pay)] at hrange
    exact execScaleFactor_outOfRange _ r vl (by rw [descValue_length]; omega) hrange
  · rw [natLE_two pay (scanEnd pay)] at hrange ⊢
    obtain ⟨t, ht, hstored⟩ := execScaleFactor_stores (u16le pay (scanEnd pay)) r vl (value := descValue pay (scanEnd pay))
      hl (by rw [descValue_length]; omega) (by omega) (by omega)
    rw [natLE_descValue (Nat.not_lt.1 hvalue)] at hstored
    refine ⟨?_, t, ht, hstored.scale, fun c => ⟨hstored.samples c, hstored.count c⟩, hstored.others, hstored.frame⟩
    rw [natLE_two, htype]
    rfl

/-! ### Payloads that begin with whole skipped descriptors (R124 to R130) -/

theorem descValue_at (pre : List Byte) (d : DescHead) (rest : List Byte) :
    descValue (pre ++ (encodeDescHead d ++ rest)) pre.length = rest.take 8 := by
  simp [descValue, ← List.drop_drop]

/-- CALIBRATION is the SCALE_FACTOR of the first scale descriptor, with the value bytes the payload holds behind it. -/
theorem execCalibration_scale_behind_skipBytes (h : FrameHeader) {xs : List SkipItem} (sid r vl : Bits16)
    (tail : List Byte) (s : State) (hx : ∀ x ∈ xs, x.whole = true) :
    exec (.calibration h (skipBytes xs ++ (encodeDescHead ⟨sid, 0x0002#16, r, vl⟩ ++ tail))) s
      = execScaleFactor sid r vl (tail.take 8) s := by
  obtain ⟨fuel, hfuel⟩ := execCalibration_skipBytes h xs (encodeDescHead ⟨sid, 0x0002#16, r, vl⟩ ++ tail) s hx
  rw [hfuel, calibrationScan_scanTo_scale (descHead_at ..) rfl, descValue_at]

/-- Settles O19: the first eight bytes behind the first scale descriptor's head are its value. -/
theorem calibrationAppliesFirstScale : Obligations.CalibrationAppliesFirstScale := by
  intro h xs sid r vl value tail s hl hx hv h1 h2
  have htake : (value ++ tail).take 8 = value := List.take_left' hv
  obtain ⟨t, ht, hstored⟩ := execScaleFactor_stores sid r vl hl hv.ge h1 h2
  rw [List.append_assoc, List.append_assoc, execCalibration_scale_behind_skipBytes h sid r vl _ s hx, htake]
  exact ⟨t, ht, hstored.scale, hstored.samples, hstored.others, hstored.frame⟩

/-- Settles O20: the scan ends at the end of the whole descriptors, or one stride later, which is no earlier than the
payload's end. -/
theorem calibrationWithoutScaleChangesNothing : Obligations.CalibrationWithoutScaleChangesNothing := by
  intro h xs last s hx htype hbody
  constructor
  · obtain ⟨fuel, hfuel⟩ := execCalibration_skipBytes h xs [] s hx
    rw [List.append_nil] at hfuel
    exact hfuel.trans (calibrationScan_scanTo_end le_rfl)
  · have hpast : (skipBytes xs ++ last.bytes).length ≤ (skipBytes xs).length + stride last.head.valueLength.toNat := by
      simp only [List.length_append, SkipItem.bytes, encodeDescHead_length, stride]
      omega
    have hhead : descHead (skipBytes xs ++ last.bytes) (skipBytes xs).length = some last.head := descHead_at ..
    have hlen := descHead_some_length hhead
    obtain ⟨fuel, hfuel⟩ := execCalibration_skipBytes h xs last.bytes s hx
    rw [hfuel, calibrationScan_skip rfl (by omega) hhead htype, scanTo_scanTo]
    exact calibrationScan_scanTo_end hpast

/-- Settles O21: the scan comes to the cut head, which is too short for a descriptor. -/
theorem calibrationCutHeadFaults : Obligations.CalibrationCutHeadFaults := by
  intro h xs cut s hx h1 h7
  obtain ⟨fuel, hfuel⟩ := execCalibration_skipBytes h xs cut s hx
  rw [hfuel]
  exact calibrationScan_scanTo_cut (by rw [List.length_append]; omega) (by rw [List.length_append]; omega)

/-- Settles O22: the faults are those of the first scale descriptor's SCALE_FACTOR. -/
theorem calibrationScaleFaultsInOrder : Obligations.CalibrationScaleFaultsInOrder := by
  intro h xs sid r vl tail s hx
  rw [List.append_assoc, execCalibration_scale_behind_skipBytes h sid r vl tail s hx]
  exact ⟨fun hcut => execScaleFactor_valueCut sid r vl s (by rw [List.length_take]; omega),
    fun hv hc => execScaleFactor_outOfRange sid r vl (by rw [List.length_take]; omega) hc⟩

end Sys2Proof.Machine
end

section
/-!
PROOFS. The sample decoder family (43_sample_decoder.md): what SIGNAL_DATA appends (R140, R144, R152, R153), where it
faults (R146, R147, R149, R151), the bytes it does not read (R148), and signal-data frames one after another (R145).
-/

namespace Sys2Proof.Machine

/-! ### The payload's head and its sample region (30_encoding.md R72, R74) -/

theorem natLE_signalId (pay : List Byte) : natLE pay 4 2 = (signalHead pay).signalId.toNat := natLE_two pay 4

theorem natLE_numberOfValues (pay : List Byte) : natLE pay 6 2 = (signalHead pay).numberOfValues.toNat :=
  natLE_two pay 6

/-- The samples of a signal-data payload, in payload order. -/
def signalSamples (pay : List Byte) : List Bits32 := (List.range (natLE pay 6 2)).map (sampleAt pay)

@[simp] theorem signalSamples_length (pay : List Byte) : (signalSamples pay).length = natLE pay 6 2 := by
  simp [signalSamples]

/-! ### SIGNAL_DATA past its checks (R140, R144, R152, R153) -/

/-- `t` is `s` with `vs` joined to the accumulator of channel `c`, every scale and every other channel kept, and the
working variables idle. -/
structure SamplesAppended (s : State) (c : Nat) (vs : List Bits32) (t : State) : Prop where
  samples : t.samples c = s.samples c ++ vs
  scales : ∀ d, (t.channel d).map Channel.scale = (s.channel d).map Channel.scale
  others : ∀ d, d ≠ c → t.channel d = s.channel d
  entries : t.chan.length = s.chan.length
  frame : t = { s with chan := t.chan, work := Work.idle }

theorem SamplesAppended.count {s t : State} {c : Nat} {vs : List Bits32} (h : SamplesAppended s c vs t) :
    t.count c = s.count c + vs.length := by
  simp [State.count, h.samples]

theorem SamplesAppended.cfg {s t : State} {c : Nat} {vs : List Bits32} (h : SamplesAppended s c vs t) :
    t.cfg = s.cfg := by
  rw [h.frame]

theorem samplesAppended_of_set {s t : State} {c : Nat} {ch : Channel} {vs : List Bits32} (hch : s.channel c = some ch)
    (ht : t = { s with
      chan := s.chan.set (c - 1) { ch with samples := ch.samples ++ vs }, work := Work.idle }) :
    SamplesAppended s c vs t := by
  have hchan : t.chan = s.chan.set (c - 1) { ch with samples := ch.samples ++ vs } := by rw [ht]
  have hsame := channel_set_same hch hchan
  have hother : ∀ d, d ≠ c → t.channel d = s.channel d := fun d hd =>
    channel_set_other ((channel_some_iff s c ch).1 hch).1 hchan hd
  refine ⟨?samples, ?scales, hother, by rw [hchan, List.length_set], by rw [hchan, ht]⟩
  case samples => simp [State.samples, hch, hsame]
  case scales =>
    intro d
    by_cases hd : d = c
    · rw [hd, hsame, hch]
      rfl
    · rw [hother d hd]

theorem execSignalData_appends (h : FrameHeader) {pay : List Byte} {s : State} (hl : s.chan.length = s.cfg.nChannels)
    (h8 : 8 ≤ pay.length) (hn : 8 + 3 * natLE pay 6 2 ≤ pay.length) (h1 : 1 ≤ natLE pay 4 2)
    (h2 : natLE pay 4 2 ≤ s.cfg.nChannels) (hcap : s.count (natLE pay 4 2) + natLE pay 6 2 ≤ s.cfg.capacity) :
    ∃ t, execSignalData h pay s = .next t ∧ SamplesAppended s (natLE pay 4 2) (signalSamples pay) t := by
  obtain ⟨ch, hch⟩ := channel_exists h1 (hl ▸ h2)
  rw [count_of_channel hch] at hcap
  refine ⟨_, ?_, samplesAppended_of_set hch rfl⟩
  rw [signalSamples]
  rw [natLE_signalId] at h1 h2 hch ⊢
  rw [natLE_numberOfValues] at hn hcap ⊢
  exact execSignalData_accepts h8 hn ((namesChannel_iff _ _).2 ⟨h1, h2⟩) hch hcap

/-- Settles O10: the appended list is the payload's samples, one for each of the numberOfValues groups. -/
theorem signalDataAppends : Obligations.SignalDataAppends := by
  intro h pay s hl h8 hn h1 h2 hcap
  obtain ⟨t, ht, happ⟩ := execSignalData_appends h hl h8 hn h1 h2 hcap
  exact ⟨t, ht, happ.samples, by rw [happ.count, signalSamples_length], happ.scales, happ.others, happ.frame⟩

/-! ### SIGNAL_DATA's faults (R146, R147, R149, R151) -/

theorem execSignalData_headCut (h : FrameHeader) {pay : List Byte} (s : State) (h8 : pay.length < 8) :
    FaultsWith s .payloadTooShort .signalDecode none (execSignalData h pay s) := by
  rw [execSignalData, if_pos h8]
  exact raise_faultsWith ..

theorem execSignalData_regionCut (h : FrameHeader) {pay : List Byte} (s : State) (h8 : 8 ≤ pay.length)
    (hn : pay.length < 8 + 3 * natLE pay 6 2) :
    FaultsWith s .payloadTooShort .signalDecode (some (u16le pay 4)) (execSignalData h pay s) := by
  rw [natLE_numberOfValues] at hn
  rw [execSignalData, if_neg (by omega)]
  dsimp only
  rw [if_pos hn]
  exact raise_faultsWith ..

/-- Past the two length checks SIGNAL_DATA begins with the channel check. -/
theorem execSignalData_of_region (h : FrameHeader) {pay : List Byte} (s : State) (h8 : 8 ≤ pay.length)
    (hn : 8 + 3 * natLE pay 6 2 ≤ pay.length) :
    execSignalData h pay s =
      if s.cfg.namesChannel (u16le pay 4) = false then
        .next (s.raise .channelOutOfRange .signalDecode (some (u16le pay 4)))
      else s.updateChannel (natLE pay 4 2) fun ch t =>
        if t.cfg.capacity < ch.samples.length + natLE pay 6 2 then
          .next (t.raise .sampleBufferOverflow .signalDecode (some (u16le pay 4)))
        else .next ((t.withWork { scan := none, vs := signalSamples pay }).appendCollected (natLE pay 4 2) ch) := by
  rw [signalSamples]
  rw [natLE_numberOfValues] at hn ⊢
  rw [natLE_signalId, execSignalData, if_neg (by omega)]
  dsimp only
  rw [if_neg (by omega)]
  simp only [collectSamples_eq]
  rfl

theorem execSignalData_outOfRange (h : FrameHeader) {pay : List Byte} {s : State} (h8 : 8 ≤ pay.length)
    (hn : 8 + 3 * natLE pay 6 2 ≤ pay.length) (hc : natLE pay 4 2 < 1 ∨ s.cfg.nChannels < natLE pay 4 2) :
    FaultsWith s .channelOutOfRange .signalDecode (some (u16le pay 4)) (execSignalData h pay s) := by
  rw [natLE_two] at hc
  have hno : s.cfg.namesChannel (u16le pay 4) = false := (namesChannel_false_iff _ _).2 (by omega)
  rw [execSignalData_of_region h s h8 hn, if_pos hno]
  exact raise_faultsWith ..

theorem execSignalData_overflow (h : FrameHeader) {pay : List Byte} {s : State} (hl : s.chan.length = s.cfg.nChannels)
    (h8 : 8 ≤ pay.length) (hn : 8 + 3 * natLE pay 6 2 ≤ pay.length) (h1 : 1 ≤ natLE pay 4 2)
    (h2 : natLE pay 4 2 ≤ s.cfg.nChannels) (hcap : s.cfg.capacity < s.count (natLE pay 4 2) + natLE pay 6 2) :
    FaultsWith s .sampleBufferOverflow .signalDecode (some (u16le pay 4)) (execSignalData h pay s) := by
  obtain ⟨ch, hch⟩ := channel_exists h1 (hl ▸ h2)
  have hnames : s.cfg.namesChannel (u16le pay 4) = true :=
    (namesChannel_iff _ _).2 ⟨natLE_two pay 4 ▸ h1, natLE_two pay 4 ▸ h2⟩
  rw [count_of_channel hch] at hcap
  rw [execSignalData_of_region h s h8 hn, if_neg (by simp [hnames]), updateChannel_some hch, if_pos hcap]
  exact raise_faultsWith ..

/-- Settles O11: the checks one after the other, and past them the state differs in the channel file and `work`. -/
theorem signalDataFaultsInOrder : Obligations.SignalDataFaultsInOrder := by
  intro h pay s hl
  split_ifs with h8 hn hc hcap
  · exact execSignalData_headCut h s h8
  · exact execSignalData_regionCut h s (Nat.not_lt.1 h8) hn
  · exact execSignalData_outOfRange h (Nat.not_lt.1 h8) (Nat.not_lt.1 hn) hc
  · exact execSignalData_overflow h hl (Nat.not_lt.1 h8) (Nat.not_lt.1 hn) (by omega) (by omega) hcap
  · obtain ⟨t, ht, happ⟩ := execSignalData_appends h hl (Nat.not_lt.1 h8) (Nat.not_lt.1 hn) (by omega) (by omega)
      (Nat.not_lt.1 hcap)
    exact ⟨t, ht, by rw [happ.frame], by rw [happ.frame]⟩

/-! ### The bytes SIGNAL_DATA does not read (R148) -/

theorem natLE_append_left (p q : List Byte) (n : Nat) {o : Nat} (h : o + n ≤ p.length) :
    natLE (p ++ q) o n = natLE p o n := by
  induction n generalizing o with
  | zero => rfl
  | succ n ih => rw [natLE, natLE, ih (by omega), List.getD_append _ _ _ _ (by omega)]

theorem sampleAt_append_left {pay : List Byte} (extra : List Byte) {i : Nat} (h : 8 + 3 * (i + 1) ≤ pay.length) :
    sampleAt (pay ++ extra) i = sampleAt pay i := by
  unfold sampleAt
  rw [u8_append_left _ _ _ (by omega), u8_append_left _ _ _ (by omega), u8_append_left _ _ _ (by omega)]

theorem signalSamples_append_left {pay : List Byte} (extra : List Byte) (h8 : 8 ≤ pay.length)
    (hn : 8 + 3 * natLE pay 6 2 ≤ pay.length) : signalSamples (pay ++ extra) = signalSamples pay := by
  rw [signalSamples, natLE_append_left _ _ _ h8]
  refine List.map_congr_left fun i hi => sampleAt_append_left extra ?_
  have hlt := List.mem_range.1 hi
  omega

/-- Settles O12: past the length checks SIGNAL_DATA reads its signalId, its numberOfValues and its samples, and these
are the same with more bytes behind them. -/
theorem signalDataIgnoresTrailingBytes : Obligations.SignalDataIgnoresTrailingBytes := by
  intro h pay extra s h8 hn
  have hid : u16le (pay ++ extra) 4 = u16le pay 4 := u16le_append_left _ _ _ (by omega)
  have hidNat : natLE (pay ++ extra) 4 2 = natLE pay 4 2 := natLE_append_left _ _ _ (by omega)
  have hnum : natLE (pay ++ extra) 6 2 = natLE pay 6 2 := natLE_append_left _ _ _ h8
  have hvs := signalSamples_append_left extra h8 hn
  have hlen : pay.length ≤ (pay ++ extra).length := by simp
  have hregion := execSignalData_of_region h (pay := pay ++ extra) s (by omega) (by omega)
  rw [hid, hidNat, hnum, hvs] at hregion
  exact hregion.trans (execSignalData_of_region h s h8 hn).symm

/-! ### Signal-data frames one after another (R145) -/

/-- Settles O13, by induction on the frames: the first one's samples are appended, the channel file keeps its length and
the configuration is kept, so the rest runs from the state it answers, with as much less capacity to go. -/
theorem signalFramesConcatenate : Obligations.SignalFramesConcatenate := by
  intro frames c
  induction frames with
  | nil =>
    intro s _ _ _ _ _
    exact ⟨s, rfl, (List.append_nil _).symm, rfl, fun _ _ => rfl⟩
  | cons f fs ih =>
    intro s hl h1 h2 hfit hcap
    obtain ⟨⟨h8, hn, rfl⟩, hrest⟩ := List.forall_mem_cons.1 hfit
    rw [List.map_cons, List.sum_cons] at hcap ⊢
    obtain ⟨u, hu, happ⟩ := execSignalData_appends f.1 hl h8 hn h1 h2 (by omega)
    have hcount : u.count (natLE f.2 4 2) = s.count (natLE f.2 4 2) + natLE f.2 6 2 := by
      rw [happ.count, signalSamples_length]
    obtain ⟨t, ht, hsamples, htcount, hothers⟩ :=
      ih u (by rw [happ.entries, happ.cfg, hl]) h1 (happ.cfg ▸ h2) hrest (by rw [hcount, happ.cfg]; omega)
    refine ⟨t, ?run, ?samples, ?count, fun d hd => (hothers d hd).trans (happ.others d hd)⟩
    case run =>
      have hfirst : andThen (.next s) (exec (.signalData f.1 f.2)) = .next u := hu
      rw [List.foldl_cons, hfirst, ht]
    case samples =>
      rw [hsamples, happ.samples, List.append_assoc]
      rfl
    case count => omega

end Sys2Proof.Machine
end

section
/-!
PROOFS. The stream loop family (44_stream_loop.md): what one event does while running (R161 to R164, R171), what a
commit runs and where it ends (R165 to R169), that no step stops (R176), and runs of whole frames and of reads in pieces
(R161, R173, R174).
-/

namespace Sys2Proof.Machine

/-! ### One event at a time (R161 to R164, R171) -/

/-- Settles O32: with no event offered nothing is accepted. -/
theorem runningWaitsForAnEvent : Obligations.RunningWaitsForAnEvent := by
  intro s hn hs
  rw [step_noReset hn]
  exact eventStep_wait (s := s.pinRead) hs

theorem step_byte_awaitingHeader {s : State} {b : Byte} {rest : List StreamEvent} (hn : s.noReset = true)
    (hp : s.phase = .awaitingHeader) (hs : s.stream = .byte b :: rest) :
    step s = State.headerByte { s.pinRead with stream := rest } b := by
  rw [step_accept hn (running_of_awaitingHeader hp) hs]
  exact accept_headerByte b hp

theorem step_byte_awaitingPayload {s : State} {b : Byte} {rest : List StreamEvent} (hn : s.noReset = true)
    (hp : s.phase = .awaitingPayload) (hs : s.stream = .byte b :: rest) :
    step s = State.payloadByte { s.pinRead with stream := rest } b := by
  rw [step_accept hn (running_of_awaitingPayload hp) hs]
  exact accept_payloadByte b hp

/-- Settles O26: fewer than 27 bytes stand in the buffer, so the byte joins them. -/
theorem headerByteIsBuffered : Obligations.HeaderByteIsBuffered := by
  intro s b rest hn hp hs h26
  rw [step_byte_awaitingHeader hn hp hs]
  exact headerByte_buffers b (Nat.lt_succ_of_le h26)

/-- Settles O27: the byte is the 28th, and the header's last four bytes are its dataLength. -/
theorem headerCompletionLatchesHeader : Obligations.HeaderCompletionLatchesHeader := by
  intro s b rest hn hp hs h27
  have hfull : ¬ s.hdrBuf.length < 27 := by omega
  rw [step_byte_awaitingHeader hn hp hs]
  exact ⟨fun hlen => headerByte_completes b hfull (mt (dataLength_eq_zero _).1 hlen),
    fun hlen => headerByte_commits b hfull ((dataLength_eq_zero _).2 hlen)⟩

/-- Settles O28: the payload's length after the byte decides, and messageType does not. -/
theorem payloadByteIsBuffered : Obligations.PayloadByteIsBuffered := by
  intro s b rest hn hp hs
  rw [step_byte_awaitingPayload hn hp hs]
  exact ⟨fun hlen => payloadByte_buffers b hlen, fun hlen => payloadByte_commits b hlen⟩

theorem readStep_of_awaitingHeader {s : State} (hp : s.phase = .awaitingHeader) : s.readStep = .headerRead := if_pos hp

theorem readStep_of_awaitingPayload {s : State} (hp : s.phase = .awaitingPayload) : s.readStep = .payloadRead :=
  if_neg (by simp [hp])

/-- A running block takes either transport event as a fault, with the step of the phase. -/
theorem step_transport_faultsWith {s : State} {rest : List StreamEvent} (hn : s.noReset = true)
    (hr : s.running = true) :
    (s.stream = .endOfStream :: rest →
      FaultsWith { s.pinRead with stream := rest } .endOfStream s.readStep none (step s)) ∧
    (s.stream = .error :: rest →
      FaultsWith { s.pinRead with stream := rest } .streamError s.readStep none (step s)) := by
  constructor
  all_goals
    intro hs
    rw [step_accept hn hr hs]
    exact raise_faultsWith ..

/-- Settles O30: the two transport events in each of the two running phases. -/
theorem transportEventsFault : Obligations.TransportEventsFault := by
  intro s rest hn
  have header (hp : s.phase = .awaitingHeader) :=
    readStep_of_awaitingHeader hp ▸ step_transport_faultsWith (rest := rest) hn (running_of_awaitingHeader hp)
  have payload (hp : s.phase = .awaitingPayload) :=
    readStep_of_awaitingPayload hp ▸ step_transport_faultsWith (rest := rest) hn (running_of_awaitingPayload hp)
  exact ⟨fun hp => (header hp).1, fun hp => (header hp).2, fun hp => (payload hp).1, fun hp => (payload hp).2⟩

/-! ### Which operation a step runs (R163, R166, R167) -/

/-- Settles O24: the 28 bytes decode to HEADER_DECODE of the header O27 latches, whose dataLength decides. -/
theorem stepRunsTheDecodedHeader : Obligations.StepRunsTheDecodedHeader := by
  intro s b rest i hn hp hs h27 hdec
  rw [decode_header_of_length (by simp [h27])] at hdec
  obtain ⟨rfl, -⟩ := Prod.mk.inj (Except.ok.inj hdec)
  obtain ⟨awaits, commits⟩ := headerCompletionLatchesHeader s b rest hn hp hs h27
  rw [exec_headerDecode, andThen_next]
  by_cases hlen : (decodeHeader (s.hdrBuf ++ [b])).dataLength = 0#32
  · rw [if_pos hlen]
    exact commits ((dataLength_eq_zero _).1 hlen)
  · rw [if_neg hlen]
    exact awaits (mt (dataLength_eq_zero _).2 hlen)

theorem commit_eq (s : State) :
    s.commit = andThen (exec (frameInstr s.hdr s.pay) { s with pay := [] }) fun t => .next t.settle := rfl

/-- Bytes that are one whole frame: the operation is the one dispatched to, on all the bytes behind the header. -/
theorem eq_frameInstr_of_decode {h : FrameHeader} {pay : List Byte} {i : Instr}
    (hdec : decode .frame (encodeHeader h ++ pay) = .ok (i, [])) : i = frameInstr h pay := by
  have hlen : h.dataLength.toNat ≤ pay.length := by
    by_contra hshort
    rw [decode_frame_payloadCut h (by omega)] at hdec
    cases hdec
  have hwhole := decode_frame_append h (pay := pay.take h.dataLength.toNat) (pay.drop h.dataLength.toNat)
    (List.length_take_of_le hlen)
  rw [List.take_append_drop, hdec] at hwhole
  obtain ⟨rfl, hrest⟩ := Prod.mk.inj (Except.ok.inj hwhole)
  rw [List.take_of_length_le (List.drop_eq_nil_iff.1 hrest.symm)]

/-- Settles O25: the operation decoded is the one the commit dispatches to, with the payload buffer taken. -/
theorem stepRunsTheDecodedFrame : Obligations.StepRunsTheDecodedFrame := by
  constructor
  · intro s b rest i hn hp hs hlen hdec
    rw [eq_frameInstr_of_decode hdec, (payloadByteIsBuffered s b rest hn hp hs).2 hlen]
    rfl
  · intro s i hpay hdec
    have hi : i = frameInstr s.hdr s.pay := by
      rw [hpay]
      exact eq_frameInstr_of_decode (by rwa [List.append_nil])
    have hs : { s with pay := [] } = s := by rw [← hpay]
    rw [commit_eq, hs, hi]

theorem settle_eq {s : State} (hp : s.phase ≠ .faulted) :
    s.settle = { s with phase := if s.terminated then .done else .awaitingHeader } := by
  rw [State.settle, if_neg hp]
  split <;> rfl

/-- Settles O23: a messageType other than 1 and 8 selects DISCARD, and the end of the commit sets the phase alone. -/
theorem discardChangesNothing : Obligations.DiscardChangesNothing := by
  refine ⟨fun _ _ _ => rfl, fun s b rest hn hp hs hlen h1 h8 => ?_⟩
  have hinstr : frameInstr s.hdr (s.pay ++ [b]) = .discard s.hdr (s.pay ++ [b]) :=
    frameInstr_discard _ (fun h => h1 (by rw [h]; rfl)) (fun h => h8 (by rw [h]; rfl))
  rw [(payloadByteIsBuffered s b rest hn hp hs).2 hlen, commit_eq]
  dsimp only [State.pinRead_hdr]
  rw [hinstr]
  exact congrArg Host.Outcome.next (settle_eq (by simp [hp]))

/-! ### Where a commit ends (R165, R168, R169) -/

/-- A commit that does not fault has taken the payload, kept the header buffer, and set the phase by the termination
predicate. -/
theorem commit_ends {s t : State} (h : s.commit = .next t) (hl : s.chan.length = s.cfg.nChannels)
    (hw : s.work = Work.idle) (hp : s.phase ≠ .faulted) (ht : t.phase ≠ .faulted) :
    t.pay = [] ∧ t.hdrBuf = s.hdrBuf ∧ t.phase = if t.terminated then .done else .awaitingHeader := by
  rcases commit_cases hl hw with ⟨code, stage, sid, he, -⟩ | ⟨chs, -, he⟩
  · cases he.symm.trans h
    exact absurd rfl ht
  · cases he.symm.trans h
    refine ⟨State.settle_pay _, State.settle_hdrBuf _, ?_⟩
    rw [settle_phase, settle_terminated]
    exact if_neg hp

/-- Settles O29: both ways to complete a frame commit it from a state with an empty header buffer. -/
theorem commitEndsExactlyAtTheTargets : Obligations.CommitEndsExactlyAtTheTargets := by
  intro s t b rest hi hn hs hframe hstep ht
  have hends : t.pay = [] ∧ t.hdrBuf = [] ∧ t.phase = if t.terminated then .done else .awaitingHeader := by
    rcases hframe with ⟨hp, hlen⟩ | ⟨hp, h27, hlen⟩
    · rw [(payloadByteIsBuffered s b rest hn hp hs).2 hlen] at hstep
      obtain ⟨hpay, hbuf, hphase⟩ := commit_ends hstep hi.oneEntryEach hi.workIdle (by simp [hp]) ht
      exact ⟨hpay, hbuf.trans (hi.inPayload hp).1, hphase⟩
    · rw [(headerCompletionLatchesHeader s b rest hn hp hs h27).2 hlen] at hstep
      exact commit_ends hstep hi.oneEntryEach hi.workIdle (by simp [hp]) ht
  obtain ⟨hpay, hbuf, hphase⟩ := hends
  refine ⟨hpay, hbuf, fun hmet => ?_, fun ⟨c, h1, h2, hbelow⟩ => ?_⟩
  · rw [hphase, if_pos ((terminated_iff t).2 hmet)]
  · rw [hphase, if_neg fun hmet => absurd ((terminated_iff t).1 hmet c h1 h2) (by omega)]

/-! ### No step stops (R176, log 11 and 2) -/

section
variable {s : State} (hl : s.chan.length = s.cfg.nChannels) (hw : s.work = Work.idle)
include hl hw

theorem commit_answers : ∃ t, s.commit = .next t := by
  rcases commit_cases hl hw with ⟨code, stage, sid, he, -⟩ | ⟨chs, -, he⟩ <;> exact ⟨_, he⟩

theorem headerByte_answers (b : Byte) : ∃ t, s.headerByte b = .next t := by
  by_cases hlen : s.hdrBuf.length < 27
  · exact ⟨_, headerByte_buffers b hlen⟩
  by_cases hempty : (decodeHeader (s.hdrBuf ++ [b])).dataLength = 0#32
  · rw [headerByte_commits b hlen hempty]
    exact commit_answers hl hw
  · exact ⟨_, headerByte_completes b hlen hempty⟩

theorem payloadByte_answers (b : Byte) : ∃ t, s.payloadByte b = .next t := by
  by_cases hlen : s.pay.length + 1 = s.hdr.dataLength.toNat
  · rw [payloadByte_commits b hlen]
    exact commit_answers hl hw
  · exact ⟨_, payloadByte_buffers b hlen⟩

theorem accept_answers (hr : s.running = true) (ev : StreamEvent) : ∃ t, s.accept ev = .next t := by
  cases ev with
  | byte b =>
    rcases (running_iff s).1 hr with hp | hp
    · rw [accept_headerByte b hp]
      exact headerByte_answers hl hw b
    · rw [accept_payloadByte b hp]
      exact payloadByte_answers hl hw b
  | endOfStream | error => exact ⟨_, rfl⟩

theorem eventStep_answers : ∃ t, s.eventStep = .next t := by
  cases hr : s.running with
  | false => exact ⟨_, eventStep_rest hr⟩
  | true =>
    cases hs : s.stream with
    | nil => exact ⟨_, eventStep_wait hs⟩
    | cons ev rest =>
      rw [eventStep_accept hr hs]
      exact accept_answers (s := { s with stream := rest }) hl hw hr ev

end

theorem resetsSupplied_iff (s : State) :
    s.resetsSupplied = true ↔ ∀ targets, some targets ∈ s.ctl → targets.length = s.cfg.nChannels := by
  rw [State.resetsSupplied, List.all_eq_true]
  constructor
  · intro h targets hmem
    simpa using h _ hmem
  · rintro h (_ | targets) hmem
    · rfl
    · simpa using h targets hmem

/-- Every step reads one entry of what the reset pin does (log 2). -/
theorem step_ctl {s t : State} (h : step s = .next t) : t.ctl = s.ctl.tail := by
  rcases noReset_or s with hn | ⟨targets, rest, hctl⟩
  · cases eventCase hn h with
    | byte _ _ _ _ _ hk => exact hk.ctl
    | transport _ _ _ _ _ hk => exact hk.ctl
    | still _ ht => exact ht ▸ rfl
  · rw [step_reset hctl] at h
    obtain ⟨-, rfl⟩ := takeReset_eq_next h
    rw [hctl]
    exact State.checkTermination_ctl _

theorem resetsSupplied_step {s t : State} (hsup : s.resetsSupplied = true) (h : step s = .next t) :
    t.resetsSupplied = true := by
  rw [resetsSupplied_iff] at hsup ⊢
  intro targets hmem
  rw [step_ctl h] at hmem
  rw [(configurationFixedBetweenResets s t h).2.1]
  exact hsup targets (List.mem_of_mem_tail hmem)

/-- Settles O38: a reset has its targets, and an event meets a complete channel file and idle decoders. -/
theorem stepAlwaysAnswersNext : Obligations.StepAlwaysAnswersNext := by
  intro s hi hsup
  have hanswers : ∃ t, step s = .next t := by
    rcases noReset_or s with hn | ⟨targets, rest, hctl⟩
    · rw [step_noReset hn]
      exact eventStep_answers (s := s.pinRead) hi.oneEntryEach hi.workIdle
    · rw [step_reset hctl]
      exact ⟨_, if_pos ((resetsSupplied_iff s).1 hsup targets (by simp [hctl]))⟩
  obtain ⟨t, ht⟩ := hanswers
  exact ⟨t, ht, resetsSupplied_step hsup ht⟩

/-! ### A run over a whole frame (R163 to R166, R173, R174) -/

theorem noReset_of_ctl_nil {s : State} (h : s.ctl = []) : s.noReset = true := by simp [State.noReset, h]

theorem pinRead_of_ctl_nil {s : State} (h : s.ctl = []) : s.pinRead = s := by
  rw [State.pinRead, h, List.tail_nil, ← h]

/-- A run over bytes that do not complete a header buffers them. -/
theorem after_headerBytes (bs : List Byte) {rest : List StreamEvent} {s : State} (hc : s.ctl = [])
    (hp : s.phase = .awaitingHeader) (hlen : s.hdrBuf.length + bs.length ≤ 27)
    (hs : s.stream = bs.map StreamEvent.byte ++ rest) :
    s.after bs.length = .next { s with
      hdrBuf := s.hdrBuf ++ bs, stream := rest, streamPos := s.streamPos + bs.length } := by
  induction bs generalizing s with
  | nil => simp [← show s.stream = rest from hs]
  | cons b bs ih =>
    rw [List.length_cons] at hlen ⊢
    rw [after_succ, headerByteIsBuffered s b _ (noReset_of_ctl_nil hc) hp hs (by omega), pinRead_of_ctl_nil hc,
      andThen_next]
    refine Eq.trans (ih hc hp (by simp; omega) rfl) ?_
    simp [Nat.add_assoc, Nat.add_comm 1]

/-- A run over bytes that do not complete a payload buffers them. -/
theorem after_payloadBytes (bs : List Byte) {rest : List StreamEvent} {s : State} (hc : s.ctl = [])
    (hp : s.phase = .awaitingPayload) (hlen : s.pay.length + bs.length < s.hdr.dataLength.toNat)
    (hs : s.stream = bs.map StreamEvent.byte ++ rest) :
    s.after bs.length = .next { s with
      pay := s.pay ++ bs, stream := rest, streamPos := s.streamPos + bs.length } := by
  induction bs generalizing s with
  | nil => simp [← show s.stream = rest from hs]
  | cons b bs ih =>
    rw [List.length_cons] at hlen ⊢
    rw [after_succ, (payloadByteIsBuffered s b _ (noReset_of_ctl_nil hc) hp hs).1 (by omega), pinRead_of_ctl_nil hc,
      andThen_next]
    refine Eq.trans (ih hc hp (by simp; omega) rfl) ?_
    simp [Nat.add_assoc, Nat.add_comm 1]

/-- A run over a header's bytes from a frame boundary latches the header; then the payload is awaited, or a frame
without one commits. -/
theorem after_header (h : FrameHeader) {rest : List StreamEvent} {s : State} (hc : s.ctl = [])
    (hp : s.phase = .awaitingHeader) (hbuf : s.hdrBuf = [])
    (hs : s.stream = (encodeHeader h).map StreamEvent.byte ++ rest) :
    s.after 28 =
      if h.dataLength = 0#32 then
        State.commit { s with hdr := h, hdrBuf := [], pay := [], stream := rest, streamPos := s.streamPos + 28 }
      else .next { s with
        hdr := h, hdrBuf := [], pay := [], stream := rest, streamPos := s.streamPos + 28
        phase := .awaitingPayload } := by
  obtain ⟨bs, b, hbytes⟩ := (List.eq_nil_or_concat' (encodeHeader h)).resolve_left
    (List.ne_nil_of_length_pos (by simp))
  have h27 : bs.length = 27 := by simpa [hbytes] using encodeHeader_length h
  have hdec : decode .header (bs ++ [b]) = .ok (.headerDecode h, []) := by
    simpa [hbytes] using decode_header_append h []
  rw [hbytes, List.map_append, List.append_assoc] at hs
  rw [show 28 = bs.length + 1 by omega, after_add, after_headerBytes bs hc hp (by simp [hbuf, h27]) hs, andThen_next,
    after_one]
  refine Eq.trans (stepRunsTheDecodedHeader _ b rest (.headerDecode h) (noReset_of_ctl_nil hc) hp rfl
    (by simp [hbuf, h27]) (by simpa [hbuf] using hdec)) ?_
  rw [pinRead_of_ctl_nil (by exact hc)]
  rfl

/-- A run over a payload's bytes commits the frame. -/
theorem after_payload {pay : List Byte} {rest : List StreamEvent} {s : State} (hc : s.ctl = [])
    (hp : s.phase = .awaitingPayload) (hpay : s.pay = []) (hne : pay ≠ []) (hlen : pay.length = s.hdr.dataLength.toNat)
    (hs : s.stream = pay.map StreamEvent.byte ++ rest) :
    s.after pay.length =
      State.commit { s with pay := pay, stream := rest, streamPos := s.streamPos + pay.length } := by
  obtain ⟨bs, b, rfl⟩ := (List.eq_nil_or_concat' pay).resolve_left hne
  rw [List.map_append, List.append_assoc] at hs
  rw [List.length_append, List.length_singleton] at hlen ⊢
  rw [after_add, after_payloadBytes bs hc hp (by simp [hpay]; omega) hs, andThen_next, after_one, hpay]
  have hlast := payloadByteIsBuffered { s with
    pay := bs, stream := .byte b :: rest, streamPos := s.streamPos + bs.length } b rest
    (noReset_of_ctl_nil hc) hp rfl
  rw [pinRead_of_ctl_nil (by exact hc)] at hlast
  exact hlast.2 hlen

/-- Settles O43: the header's bytes and then the payload's, the last of which commits the frame. -/
theorem wholeFrameRunsItsOperation : Obligations.WholeFrameRunsItsOperation := by
  intro h pay rest s hp hbuf hc hlen hs
  rw [encode_frameInstr, List.map_append, List.append_assoc] at hs
  have hheader := after_header h hc hp hbuf hs
  by_cases hnil : pay = []
  · subst hnil
    rw [if_pos (BitVec.eq_of_toNat_eq hlen.symm), commit_eq, hp] at hheader
    exact hheader
  · have hsome : h.dataLength ≠ 0#32 := fun h0 => hnil (List.length_eq_zero_iff.1 (by simpa [h0] using hlen))
    rw [if_neg hsome] at hheader
    rw [after_add, hheader, andThen_next, after_payload (by exact hc) rfl rfl hnil hlen rfl, if_neg hnil, commit_eq,
      Nat.add_assoc]

/-! ### Reads in pieces (R161) -/

/-- `s` with more events offered behind those it has been offered. -/
def State.offer (es : List StreamEvent) (s : State) : State := { s with stream := s.stream ++ es }

theorem commit_offer (es : List StreamEvent) (s : State) : (s.offer es).commit = mapNext (State.offer es) s.commit :=
  commit_outside (a := id) (g := (· ++ es)) (l := id) s rfl

theorem headerByte_offer (es : List StreamEvent) (s : State) (b : Byte) :
    (s.offer es).headerByte b = mapNext (State.offer es) (s.headerByte b) := by
  by_cases hlen : s.hdrBuf.length < 27
  · rw [headerByte_buffers b hlen, headerByte_buffers b (by exact hlen)]
    rfl
  by_cases hempty : (decodeHeader (s.hdrBuf ++ [b])).dataLength = 0#32
  · rw [headerByte_commits b hlen hempty, headerByte_commits (s := s.offer es) b hlen hempty]
    exact commit_offer es { s with
      hdr := decodeHeader (s.hdrBuf ++ [b]), hdrBuf := [], pay := [], streamPos := s.streamPos + 1 }
  · rw [headerByte_completes b hlen hempty, headerByte_completes (s := s.offer es) b hlen hempty]
    rfl

theorem payloadByte_offer (es : List StreamEvent) (s : State) (b : Byte) :
    (s.offer es).payloadByte b = mapNext (State.offer es) (s.payloadByte b) := by
  by_cases hlen : s.pay.length + 1 = s.hdr.dataLength.toNat
  · rw [payloadByte_commits b hlen, payloadByte_commits (s := s.offer es) b hlen]
    exact commit_offer es { s with pay := s.pay ++ [b], streamPos := s.streamPos + 1 }
  · rw [payloadByte_buffers b hlen, payloadByte_buffers (s := s.offer es) b hlen]
    rfl

theorem accept_offer (es : List StreamEvent) {s : State} (hr : s.running = true) (ev : StreamEvent) :
    (s.offer es).accept ev = mapNext (State.offer es) (s.accept ev) := by
  cases ev with
  | byte b =>
    rcases (running_iff s).1 hr with hp | hp
    · rw [accept_headerByte b hp, accept_headerByte b (by exact hp)]
      exact headerByte_offer es s b
    · rw [accept_payloadByte b hp, accept_payloadByte b (by exact hp)]
      exact payloadByte_offer es s b
  | endOfStream | error => rfl

/-- Where an event is offered, what is offered behind it makes no difference to the step. -/
theorem step_offer (es : List StreamEvent) {s : State} {ev : StreamEvent} {rest : List StreamEvent}
    (hn : s.noReset = true) (hr : s.running = true) (hs : s.stream = ev :: rest) :
    step (s.offer es) = mapNext (State.offer es) (step s) := by
  rw [step_accept hn hr hs,
    step_accept (s := s.offer es) (rest := rest ++ es) hn hr (by rw [State.offer, hs]; rfl)]
  exact accept_offer es (s := { s.pinRead with stream := rest }) hr ev

theorem step_stream {s t : State} {ev : StreamEvent} {rest : List StreamEvent} (hn : s.noReset = true)
    (hr : s.running = true) (hs : s.stream = ev :: rest) (h : step s = .next t) : t.stream = rest := by
  cases eventCase hn h with
  | byte _ _ _ _ hs' hk => exact hk.stream.trans (List.cons.inj (hs'.symm.trans hs)).2
  | transport _ _ _ hs' _ hk => exact hk.stream.trans (List.cons.inj (hs'.symm.trans hs)).2
  | still hrest _ => simp [hr, hs] at hrest

/-- A block that takes no event, as it is at rest or none is offered, stays as it is for any number of steps. -/
theorem after_still (k : Nat) {s : State} (hc : s.ctl = []) (h : s.running = false ∨ s.stream = []) :
    s.after k = .next s := by
  have hstep : step s = .next s := by
    rw [step_noReset (noReset_of_ctl_nil hc), pinRead_of_ctl_nil hc]
    exact h.elim eventStep_rest eventStep_wait
  induction k with
  | zero => rfl
  | succ k ih => rw [after_succ, hstep, andThen_next, ih]

/-- A block that takes the events it has been offered, waits, and is then offered more comes to what it comes to if it
is offered them all at once. -/
theorem after_offer (es : List StreamEvent) (waits k : Nat) {evs : List StreamEvent} {s : State} (hc : s.ctl = [])
    (hs : s.stream = evs) :
    andThen (s.after (evs.length + waits)) (fun t => (t.offer es).after k) = (s.offer es).after (evs.length + k) := by
  induction evs generalizing s with
  | nil =>
    rw [List.length_nil, Nat.zero_add, Nat.zero_add, after_still waits hc (.inr hs), andThen_next]
  | cons ev rest ih =>
    cases hr : s.running with
    | false =>
      rw [after_still _ hc (.inl hr), andThen_next, after_still (s := s.offer es) _ hc (.inl hr),
        after_still (s := s.offer es) _ hc (.inl hr)]
    | true =>
      have hn := noReset_of_ctl_nil hc
      rw [List.length_cons, Nat.add_right_comm, Nat.add_right_comm _ 1, after_succ, after_succ, step_offer es hn hr hs]
      cases hstep : step s with
      | next t => exact ih (by rw [step_ctl hstep, hc]; rfl) (step_stream hn hr hs hstep)
      | fault _ | refused _ => rfl

theorem readEvents_length (reads : List (List Byte)) : (readEvents reads).length = reads.flatten.length := by
  simp [readEvents, List.length_flatMap, List.length_flatten]

/-- Settles O46: the bytes of the first reads are the events taken before the wait. -/
theorem chunkingIsInvisible : Obligations.ChunkingIsInvisible := by
  intro reads reads' rest s waits k hc
  rw [← readEvents_length]
  exact after_offer _ waits k (s := { s with stream := readEvents reads }) hc rfl

end Sys2Proof.Machine
end

section
/-!
PROOFS. The exceptions family (60_exceptions.md): what a step that takes a fault leaves and records (R191, R199), and
the channel outputs of a run that ended in Done (R208).
-/

namespace Sys2Proof.Machine

/-! ### A step that faults (R191, R199) -/

theorem phase_ne_faulted_of_running {s : State} (hr : s.running = true) : s.phase ≠ .faulted := by
  rcases (running_iff s).1 hr with hp | hp <;> simp [hp]

/-- The end of a commit takes no fault (44_stream_loop.md R165). -/
theorem settle_phase_ne_faulted {s : State} (hp : s.phase ≠ .faulted) : s.settle.phase ≠ .faulted := by
  rw [settle_phase, if_neg hp]
  split <;> simp

/-- Settles O39: of the cases of a step from a running state only a commit that faults and a transport event end in
Faulted. Both raise from the state as the event found it, the first with the frame's last byte counted. -/
theorem faultingStepWritesNoChannel : Obligations.FaultingStepWritesNoChannel := by
  intro s t hi hn hr h ht
  have hp := phase_ne_faulted_of_running hr
  cases stepCase s t hi.oneEntryEach hi.workIdle hn h with
  | still | headerByte | payloadByte => exact absurd ht hp
  | headerDone => cases ht
  | committed => exact absurd ht (settle_phase_ne_faulted hp)
  | faulted _ _ _ code _ _ _ _ hend herror hlegal =>
    have hdecode : ¬ (code = .endOfStream ∨ code = .streamError) := not_or.2 ⟨hend, herror⟩
    exact ⟨rfl, rfl, _, rfl, hlegal, rfl, fun htransport => absurd htransport hdecode, fun _ _ => rfl⟩
  | transport _ _ code _ _ _ _ htransport hlegal =>
    exact ⟨rfl, rfl, _, rfl, hlegal, rfl, fun _ => rfl,
      fun hend herror => absurd htransport (not_or.2 ⟨hend, herror⟩)⟩

/-! ### The channel outputs in Done (R208) -/

theorem samples_of_channel {s : State} {c : Nat} {ch : Channel} (h : s.channel c = some ch) :
    s.samples c = ch.samples := by
  simp [State.samples, h]

section
variable {s : State} {c : Nat} {ch : Channel} (hp : s.phase = .done) (hch : s.channel c = some ch)
include hp hch

theorem outCount_of_done (k : Nat) : s.outCount k c = some ch.samples.length := by
  simp [State.outCount, hch, (isDone_iff s).2 hp]

theorem outScale_of_done (k : Nat) : s.outScale k c = some ch.scale := by
  simp [State.outScale, hch, (isDone_iff s).2 hp]

theorem outSample_of_done (k j : Nat) : s.outSample k c j = ch.samples[j]? := by
  simp [State.outSample, hch, (isDone_iff s).2 hp]

end

/-- Settles O49: the channel file has an entry for the channel, and in Done each output reads it. -/
theorem doneOutputsAreTheResult : Obligations.DoneOutputsAreTheResult := by
  intro s k c hi hp h1 hc
  obtain ⟨ch, hch⟩ := channel_exists h1 (hi.oneEntryEach ▸ hc)
  refine ⟨ch, hch, ?count, outScale_of_done hp hch k, fun j => ?sample⟩
  case count => rw [outCount_of_done hp hch, count_of_channel hch]
  case sample => rw [outSample_of_done hp hch, samples_of_channel hch]

end Sys2Proof.Machine
end

section
/-!
PROOFS. The reset and hazards family (70_reset_and_hazards.md): the reset step's outcome (R221) and a target above the
capacity (R230).
-/

namespace Sys2Proof.Machine

/-! ### The reset step (R221) -/

theorem takeReset_next {s : State} {targets : List Nat} (h : targets.length = s.cfg.nChannels) :
    s.takeReset targets = .next (State.init (s.cfg.latch targets) s.stream s.ctl) := if_pos h

theorem checkTermination_phase (s : State) :
    s.checkTermination.phase = if s.terminated then .done else s.phase := by
  unfold State.checkTermination
  split <;> rfl

/-- A property of every channel's target is one of every latched value. -/
theorem forall_target_iff {cfg : Cfg} (hlen : cfg.targets.length = cfg.nChannels) (P : Nat → Prop) :
    (∀ c, 1 ≤ c → c ≤ cfg.nChannels → P (cfg.target c)) ↔ ∀ n ∈ cfg.targets, P n := by
  constructor
  · intro h n hn
    obtain ⟨k, hk, rfl⟩ := List.mem_iff_getElem.1 hn
    simpa [Cfg.target, hk] using h (k + 1) (by omega) (by omega)
  · intro h c h1 h2
    have hc : c - 1 < cfg.targets.length := by omega
    rw [Cfg.target, List.getD_eq_getElem _ _ hc]
    exact h _ (List.getElem_mem hc)

/-- With no samples yet, the termination predicate says that every target is 0. -/
theorem initial_terminated_iff {cfg : Cfg} (es : List StreamEvent) (l : List (Option (List Nat)))
    (hlen : cfg.targets.length = cfg.nChannels) :
    (State.initial cfg es l).terminated = true ↔ ∀ n ∈ cfg.targets, n = 0 := by
  rw [terminated_iff, ← forall_target_iff hlen]
  refine forall₃_congr fun c h1 h2 => ?_
  have hcount : (State.initial cfg es l).count c = 0 := count_of_channel (initial_channel es l h1 h2)
  rw [hcount, State.initial_cfg, Nat.le_zero]

theorem init_phase {cfg : Cfg} (es : List StreamEvent) (l : List (Option (List Nat)))
    (hlen : cfg.targets.length = cfg.nChannels) :
    (State.init cfg es l).phase = if ∀ n ∈ cfg.targets, n = 0 then .done else .awaitingHeader := by
  rw [State.init, checkTermination_phase, State.initial_phase]
  exact if_congr (initial_terminated_iff es l hlen) rfl rfl

/-- Settles O33: the step ends in reset's state for the latched configuration, whose termination check changes the phase
alone. -/
theorem resetInitialises : Obligations.ResetInitialises := by
  intro s targets rest hctl hlen
  have hphase := init_phase (cfg := s.cfg.latch targets) s.stream rest hlen
  refine ⟨State.init (s.cfg.latch targets) s.stream rest, ?step, ?hdrBuf, ?pay, ?streamPos, ?fault, ?chan, ?cfg,
    ?stream, ?ctl, fun hzero => ?done, fun ⟨n, hn, hpos⟩ => ?awaitingHeader⟩
  case step => exact (step_reset hctl).trans (takeReset_next hlen)
  case hdrBuf => exact State.checkTermination_hdrBuf _
  case pay => exact State.checkTermination_pay _
  case streamPos => exact State.checkTermination_streamPos _
  case fault => exact State.checkTermination_fault _
  case chan => exact State.checkTermination_chan _
  case cfg => exact State.checkTermination_cfg _
  case stream => exact State.checkTermination_stream _
  case ctl => exact State.checkTermination_ctl _
  case done => exact hphase.trans (if_pos hzero)
  case awaitingHeader => exact hphase.trans (if_neg fun hzero => hpos (hzero n hn))

/-! ### A target above the capacity (R230) -/

theorem State.Inv.count_le_capacity {s : State} (hi : s.Inv) {c : Nat} (h1 : 1 ≤ c) (hc : c ≤ s.cfg.nChannels) :
    s.count c ≤ s.cfg.capacity := by
  obtain ⟨ch, hch⟩ := channel_exists h1 (hi.oneEntryEach ▸ hc)
  rw [count_of_channel hch]
  exact hi.withinCapacity ch (List.mem_of_getElem? ((channel_some_iff s c ch).1 hch).2)

/-- Done needs the channel's count at its target, and no count passes the capacity. -/
theorem State.Inv.phase_ne_done {s : State} (hi : s.Inv) {c : Nat} (h1 : 1 ≤ c) (hc : c ≤ s.cfg.nChannels)
    (habove : s.cfg.capacity < s.cfg.target c) : s.phase ≠ .done := by
  intro hp
  have hmet := (terminated_iff s).1 (hi.doneMet hp) c h1 hc
  have hcap := hi.count_le_capacity h1 hc
  omega

/-- Settles O45: a step keeps the invariant and, without reset, the configuration. -/
theorem targetAboveCapacityIsNeverDone : Obligations.TargetAboveCapacityIsNeverDone := by
  intro s c hi h1 hc habove
  refine ⟨hi.phase_ne_done h1 hc habove, fun t hn hstep => ?_⟩
  have ht : t.Inv := stepKeepsTheInvariant s t hi hstep
  have hcfg : t.cfg = s.cfg := step_noReset_cfg hn hstep
  exact ht.phase_ne_done h1 (by rwa [hcfg]) (by rwa [hcfg])

end Sys2Proof.Machine
end
